-- ==== Sys2Proof/Word.lean ====
section
/-! DEFINITION. The two data widths of the machine and the plainest arithmetic on them
(00_scope.md rule R6 and its tables of types and primitives). A word is held as its 32 bits. The
spec's integer view of it is `BitVec.toInt`, its unsigned view is `u32`. -/

namespace Sys2Proof

/-- One memory word, and the accumulator: 32 bits, two's complement, bit `i` of weight 2^i (R6, R13, R18). -/
abbrev Word := BitVec 32

/-- The address of a memory word, an integer in 0 to 31 (R30): the 5-bit operand field of an instruction. -/
abbrev Addr := BitVec 5

/-- `wrap32(v)`: the unique word congruent to `v` modulo 2^32 (00_scope.md section 6). -/
def wrap32 (v : Int) : Word := BitVec.ofInt 32 v

/-- `u32(w)`: the unsigned view of a word (00_scope.md section 6). -/
def u32 (w : Word) : Nat := w.toNat

end Sys2Proof
end

