-- ==== Sys2Proof/Config.lean ====
section
/-! DEFINITION. The parameters of the hardware (00_scope.md rule R4). The spec leaves no value of an
instruction's result open, so there is no free value here. -/

namespace Sys2Proof.Config

/-- `WORDS`: the number of memory words (R4, R18). -/
abbrev words : Nat := 32

/-- `INIT_PC`: the program counter after `NewEngine` (R4, R160; 92_eei_decisions.md D7; UNVERIFIED,
unsafe: notes/assumptions/11.md). -/
def initPc : Int := -1

/-- `RESET_PC`: the program counter after `Reset` and `Reboot` (R4, R161, R162; 92_eei_decisions.md D7;
UNVERIFIED, unsafe: notes/assumptions/11.md). -/
def resetPc : Int := 0

end Sys2Proof.Config
end

