-- ==== Sys2Proof/Syntax.lean ====
section
/-! DEFINITION. The instructions as decoded (30_encoding.md rules R51 to R53): seven operations, each
with the 5-bit operand that decoding always extracts. The opcode table's two rows `SUB` are one
operation (R53): nothing after decoding tells opcode field 5 from 4. -/

namespace Sys2Proof

/-- A decoded instruction, the spec's pair of operation and operand (R51). `cmp` and `stp` keep the operand
that `decode` extracts, and nothing they do reads it (R58). -/
inductive Instr where
  /-- `Jump`, opcode field 0 (R80). -/
  | jmp (a : Addr)
  /-- `JumpRelative`, opcode field 1 (R81). -/
  | jrp (a : Addr)
  /-- `LoadNegative`, opcode field 2 (R90). -/
  | ldn (a : Addr)
  /-- `Store`, opcode field 3 (R93). -/
  | sto (a : Addr)
  /-- `Subtract`, opcode fields 4 and 5 (R91, R92; DEDUCED, safe: notes/assumptions/5.md). -/
  | sub (a : Addr)
  /-- `Compare`, opcode field 6 (R82). -/
  | cmp (a : Addr)
  /-- `Stop`, opcode field 7 (R100). -/
  | stp (a : Addr)
  deriving DecidableEq, Repr

/-- The operand field of a decoded instruction (R51). -/
def Instr.operand : Instr → Addr
  | .jmp a => a
  | .jrp a => a
  | .ldn a => a
  | .sto a => a
  | .sub a => a
  | .cmp a => a
  | .stp a => a

end Sys2Proof
end

