-- ==== Sys2Proof/WellFormed.lean ====
section
/-! DEFINITION. The checks on raw data. The type of `Instr` holds every operand in 0 to 31, and the spec gives each
of those 224 instructions a meaning and a word (30_encoding.md rules R54, R55), so every term of `Instr` is well
formed. What can be ill formed is a number offered as an address (R30, R118, R119), an instruction that source text
cannot write (R58), and a word that `encode` never produces (R55(c)). -/

namespace Sys2Proof

/-- An integer is an address exactly when it is in 0 to 31: "any parsed or computed value outside it is a hard
error, not wraparound" (R30). -/
def addrInRange (n : Int) : Bool := decide (0 ≤ n) && decide (n < Config.words)

/-- The address with a given number, or nothing where the number is out of range (R30). -/
def addrOfNat? (n : Nat) : Option Addr :=
  if addrInRange n then some (BitVec.ofNat 5 n) else none

/-- An instruction that the assembly grammar can write: `CMP` and `STP` carry operand 0 (R58, R115). -/
def Instr.sourceForm : Instr → Bool
  | .cmp a => a == 0
  | .stp a => a == 0
  | _ => true

/-- The bits of a word that decoding ignores: 31 to 16 and 12 to 5 (R50). -/
def unusedBits : Word := 0xFFFF1FE0

/-- A word that `encode` produces: the unused bits are zero and the opcode field is not 5 (R55(c)). -/
def canonicalWord (w : Word) : Bool :=
  (w &&& unusedBits == 0) && !(w.extractLsb' 13 3 == 5)

end Sys2Proof
end

