-- ==== Sys2Proof/Decode.lean ====
section
/-! DEFINITION. The instruction decoder, the encoder and the disassembler (30_encoding.md). Every one of the
2^32 words is an instruction, so decoding refuses nothing (R56). -/

namespace Sys2Proof

/-- `bits(w)[15:13]`, the operation selector (R50). -/
def opcodeField (w : Word) : BitVec 3 := w.extractLsb' 13 3

/-- `bits(w)[4:0]`, the operand: not extended, not scaled, not shifted (R50, R51). -/
def operandField (w : Word) : Addr := w.extractLsb' 0 5

/-- `opOf`, the opcode map, with the operand beside it. Fields 4 and 5 are one operation (R52, R53).
The numbers 1, 2, 3, 6 and 7 are the spec's D4 (UNVERIFIED, unsafe: notes/assumptions/8.md). -/
def opOf (opfield : BitVec 3) (a : Addr) : Instr :=
  match opfield with
  | 0#3 => .jmp a
  | 1#3 => .jrp a
  | 2#3 => .ldn a
  | 3#3 => .sto a
  | 4#3 => .sub a
  | 5#3 => .sub a
  | 6#3 => .cmp a
  | 7#3 => .stp a

/-- `decode`, total on words (R51). -/
def decode (w : Word) : Instr := opOf (opcodeField w) (operandField w)

/-- The word of an instruction of the opcode table, whose bits the table numbers from 0 in that one word
(opcode_table.json): the bits above `nbits` are zero. -/
def tableWord (nbits w : Nat) : Word := BitVec.ofNat 32 (w % 2 ^ nbits)

/-- The instruction the decoder reads from a table word. It refuses none (R56). -/
def decodeTableWord (nbits w : Nat) : Option Instr := some (decode (tableWord nbits w))

/-- `codeOf`, the canonical opcode value. `Subtract` is always 4 (R53, R54; the spec's D5: UNVERIFIED, unsafe:
notes/assumptions/9.md). -/
def codeOf : Instr → Nat
  | .jmp _ => 0
  | .jrp _ => 1
  | .ldn _ => 2
  | .sto _ => 3
  | .sub _ => 4
  | .cmp _ => 6
  | .stp _ => 7

/-- `encode(i) = codeOf(i.op) * 8192 + i.operand` (R54). -/
def encode (i : Instr) : Word := BitVec.ofNat 32 (codeOf i * 8192 + i.operand.toNat)

/-- The characters of the mnemonic of an operation (R52). -/
def mnemonic : Instr → List Char
  | .jmp _ => ['J', 'M', 'P']
  | .jrp _ => ['J', 'R', 'P']
  | .ldn _ => ['L', 'D', 'N']
  | .sto _ => ['S', 'T', 'O']
  | .sub _ => ['S', 'U', 'B']
  | .cmp _ => ['C', 'M', 'P']
  | .stp _ => ['S', 'T', 'P']

/-- The decimal digits of a number, without sign and without padding (R57). -/
def decimal (n : Nat) : List Char := Nat.toDigits 10 n

/-- Whether the text form of an instruction shows its operand: all but `Compare` and `Stop` (R57, R58). -/
def showsOperand : Instr → Bool
  | .cmp _ => false
  | .stp _ => false
  | _ => true

/-- The characters of `render(i)` (R57). -/
def renderChars (i : Instr) : List Char :=
  if showsOperand i then mnemonic i ++ ' ' :: decimal i.operand.toNat else mnemonic i

/-- `render(i)`, the disassembly (R57). -/
def render (i : Instr) : String := String.ofList (renderChars i)

end Sys2Proof
end

