-- ==== Sys2Proof/Machine/State.lean ====
section
/-! DEFINITION. The state of the machine (10_state.md): four registers and 32 words of memory, and nothing
else (R17, R19). The fault and refusal types of a step, and the state that the host's interface calls
reset. -/

namespace Sys2Proof.Machine

/-- The values of the latch `FAULT` (10_state.md rule R16). -/
inductive FaultLatch where
  /-- No fault since the engine was constructed, reset or rebooted. -/
  | none
  /-- A fetch address was outside 0 to 31 (60_exceptions.md rule R141). -/
  | runawayProgramCounter
  deriving DecidableEq, Repr

/-- The memory as a list of address and word, in one canonical form (`Memory.wf`): addresses strictly rising and
below 32, and no word equal to what an unlisted address reads as. The unit is the word: 20_memory.md rule R32
says that a model must not introduce bytes (DESIGN CHOICE, safe: notes/assumptions/1.md). -/
abbrev Memory := List (Nat × Word)

/-- What an address that the list does not name reads as: "a program that never defines an address leaves that
word as zero" (45_program_loader.md rule R131). -/
def unlistedWord : Word := 0

/-- The canonical form of a memory whose addresses are all at least `lo`. -/
def Memory.wfFrom : Nat → List (Nat × Word) → Bool
  | _, [] => true
  | lo, (k, w) :: m =>
    decide (lo ≤ k) && decide (k < Config.words) && !(w == unlistedWord) && Memory.wfFrom (k + 1) m

/-- The canonical form of a memory. -/
def Memory.wf (m : Memory) : Bool := Memory.wfFrom 0 m

/-- The engine's state: the five rows of 10_state.md section 1. -/
structure State where
  /-- `PC`, an exact integer: the address most recently fetched, or what a jump or a skip left (R11, R12). That it
  never wraps is the spec's D6 (UNVERIFIED, unsafe: notes/assumptions/10.md). -/
  pc : Int
  /-- `ACC`, the one data register, 32 bits (R13). -/
  acc : Word
  /-- `RUN`, the running flag (R15). -/
  run : Bool
  /-- `FAULT`, the fault latch, the spec's D3 (R16; UNVERIFIED, unsafe: notes/assumptions/7.md). -/
  fault : FaultLatch
  /-- `M[0..31]`, the memory (R18). -/
  mem : Memory
  deriving DecidableEq, Repr

/-- Why a step of the machine would stop without a next state. There is no such reason, so the type has no
constructor: `Step` is a total function (40_step_cycle.md rule R70), and its one exception, the runaway program
counter, is an effect on the state (60_exceptions.md rule R142; DEDUCED, safe: notes/assumptions/3.md). -/
inductive Fault where
  deriving DecidableEq, Repr

/-- Why the model would give an instruction no meaning. No instruction of this machine is refused. -/
inductive Refusal where
  /-- An instruction without a meaning, by its mnemonic. Raised by no arm of `exec`. It would be safe. -/
  | notModelled (mnemonic : String)
  deriving DecidableEq, Repr

/-- The state that the host's interface calls reset: the constructed engine, `NewEngine` of the image in which no
line defines a word (70_reset_and_hazards.md rule R160; DESIGN CHOICE, unsafe: notes/assumptions/2.md). The command `Reset` of rule R161 is
`resetEngine`. -/
def State.reset : State :=
  { pc := Config.initPc, acc := 0, run := true, fault := .none, mem := [] }

end Sys2Proof.Machine
end

