-- ==== Sys2Proof/Machine/Ops.lean ====
section
/-! DEFINITION. The named operations over registers and memory that every meaning is built from, and the one
exception of the machine. -/

namespace Sys2Proof.Machine

/-- The three outcomes of a step, for this machine. -/
abbrev Result := Host.Outcome State Fault Refusal

/-- The word at an address of a memory. -/
def Memory.get : List (Nat × Word) → Nat → Word
  | [], _ => unlistedWord
  | (k, w) :: m, a => if k = a then w else Memory.get m a

/-- A memory without its entries for an address. -/
def Memory.erase (m : Memory) (a : Nat) : Memory := m.filter fun c => c.1 != a

/-- A memory with one more entry, before the first of a greater address. -/
def Memory.insert (a : Nat) (v : Word) : List (Nat × Word) → Memory
  | [] => [(a, v)]
  | (k, w) :: m => if a < k then (a, v) :: (k, w) :: m else (k, w) :: Memory.insert a v m

/-- Sets the word at an address, keeping the canonical form: a word that is what an unlisted address reads as is
not listed. -/
def Memory.set (m : Memory) (a : Nat) (v : Word) : Memory :=
  if v = unlistedWord then Memory.erase m a else Memory.insert a v (Memory.erase m a)

/-- `MemRead(a, 32)`: the word at `a`, with no side effect (00_scope.md section 6; 20_memory.md rules R34, R35). -/
def memRead (s : State) (a : Addr) : Word := Memory.get s.mem a.toNat

/-- `MemWrite(a, 32, v)`: all 32 bits at `a`, and no other word (00_scope.md section 6; 20_memory.md rule R34). -/
def memWrite (a : Addr) (v : Word) (s : State) : State := { s with mem := Memory.set s.mem a.toNat v }

/-- `PC <- v`, exact and not wrapped (10_state.md rules R11, R12). -/
def setPc (v : Int) (s : State) : State := { s with pc := v }

/-- `ACC <- v` (10_state.md rule R13). -/
def setAcc (v : Word) (s : State) : State := { s with acc := v }

/-- `RUN <- b` (10_state.md rule R15). -/
def setRun (b : Bool) (s : State) : State := { s with run := b }

/-- `FAULT <- f` (10_state.md rule R16). -/
def setFault (f : FaultLatch) (s : State) : State := { s with fault := f }

/-- Taking the one exception, `raise RunawayProgramCounter` (60_exceptions.md rule R142): the engine halts and the
latch records why. `PC` already holds the offending address and keeps it. Nothing else changes: no state is saved
elsewhere and control goes nowhere. There is no return from it (R146); the host's `resetEngine` and `reboot`
(Machine/Commands.lean) are the only ways out. -/
def raiseRunaway (s : State) : State := setFault .runawayProgramCounter (setRun false s)

end Sys2Proof.Machine
end

