-- ==== Sys2Proof/Machine/Cycle.lean ====
section
/-! DEFINITION. The frame that every instruction runs in (40_step_cycle.md): the halted check, the increment, the
bounds check, the fetch. `Step.lean` ties it to the dispatch table. -/

namespace Sys2Proof.Machine

/-- `PC <- PC + 1`, exact, the first action of a step of a Running engine (R72). -/
def preIncrement (s : State) : State := setPc (s.pc + 1) s

/-- The bounds check: after the increment `PC` is in 0 to 31 (R73). That a fetch outside faults and does not wrap is
the spec's D2 (UNVERIFIED, unsafe: notes/assumptions/6.md). -/
def fetchInBounds (s : State) : Bool := addrInRange s.pc

/-- The address that `PC` names, where the bounds check holds. -/
def fetchAddr (s : State) : Addr := BitVec.ofInt 5 s.pc

/-- The word at `PC`, read from the memory as it now stands (R74). -/
def fetchWord (s : State) : Word := memRead s (fetchAddr s)

/-- One step around a dispatch table (R70): a Halted engine does not change (R71); a Running one increments `PC`
(R72), faults where it is out of bounds (R73), and otherwise fetches, decodes (R74) and executes (R75). -/
def cycle (dispatch : Instr → State → Result) (s : State) : Result :=
  if s.run then
    if fetchInBounds (preIncrement s) then
      dispatch (decode (fetchWord (preIncrement s))) (preIncrement s)
    else .next (raiseRunaway (preIncrement s))
  else .next s

/-- The state itself where it is Running and its next fetch is in bounds. Otherwise a Running state without fault
whose next fetch is from address 0, the rest as it was. It stands for no command of the spec: it serves
`State.withFetchWord` (DESIGN CHOICE, safe: notes/assumptions/4.md). -/
def readyToFetch (s : State) : State :=
  let s' := if s.run then s else setFault .none (setRun true s)
  if fetchInBounds (preIncrement s') then s' else setPc Config.initPc s'

/-- Stores a word where the next step fetches. -/
def placeFetchWord (w : Word) (s : State) : State :=
  memWrite (fetchAddr (preIncrement (readyToFetch s))) w (readyToFetch s)

end Sys2Proof.Machine
end

