-- ==== Sys2Proof/Machine/Flags.lean ====
section
/-! DEFINITION. There are no flags and no condition codes (10_state.md rule R14). What stands in their place: the one
test, of the accumulator's sign, made when `CMP` executes, and the two arithmetic operations, which wrap
silently and record nothing (42_accumulator_and_store.md rule R94). -/

namespace Sys2Proof.Machine

/-- `ACC < 0`, the signed comparison (R14, 41_jumps_and_skip.md rule R82). -/
def accNegative (s : State) : Bool := decide (s.acc.toInt < 0)

/-- `wrap32(x - y)` on the signed values: no overflow trap, nothing recorded (R91, R94). -/
def subtractWrap (x y : Word) : Word := wrap32 (x.toInt - y.toInt)

/-- `wrap32(0 - x)` on the signed value (R90, R94). That -2147483648 wraps to itself is the spec's D8 (UNVERIFIED,
unsafe: notes/assumptions/12.md). -/
def negateWrap (x : Word) : Word := wrap32 (0 - x.toInt)

end Sys2Proof.Machine
end

