-- ==== Sys2Proof/Machine/Operands.lean ====
section
/-! DEFINITION. The one addressing mode, absolute direct (42_accumulator_and_store.md rule R89), and the one
use of a word as an exact integer, by the jumps (41_jumps_and_skip.md rule R79). -/

namespace Sys2Proof.Machine

/-- The effective address is the operand field itself: no base, index, displacement or indirection (R89). -/
def effectiveAddress (a : Addr) : Addr := a

/-- The word that an operand names (R89). -/
def operandWord (s : State) (a : Addr) : Word := memRead s (effectiveAddress a)

/-- The word that an operand names, as a signed integer that is not reduced to 5 bits (R79). -/
def operandInt (s : State) (a : Addr) : Int := (operandWord s a).toInt

end Sys2Proof.Machine
end

