-- ==== Sys2Proof/Machine/Accumulator.lean ====
section
/-! DEFINITION. Accumulator arithmetic and store: `LDN`, `SUB`, `STO` (42_accumulator_and_store.md). None of
them changes `PC`. -/

namespace Sys2Proof.Machine

/-- `LDN a`: `ACC <- wrap32(0 - M[a])` (R90). -/
def execLdn (a : Addr) (s : State) : Result := .next (setAcc (negateWrap (operandWord s a)) s)

/-- `SUB a`: `ACC <- wrap32(ACC - M[a])`, for both opcode values (R91, R92). -/
def execSub (a : Addr) (s : State) : Result := .next (setAcc (subtractWrap s.acc (operandWord s a)) s)

/-- `STO a`: `M[a] <- ACC`, all 32 bits (R93). -/
def execSto (a : Addr) (s : State) : Result := .next (memWrite (effectiveAddress a) s.acc s)

end Sys2Proof.Machine
end

