-- ==== Sys2Proof/Machine/Control.lean ====
section
/-! DEFINITION. Control transfer: `JMP`, `JRP`, `CMP` (41_jumps_and_skip.md). In a meaning `PC` already holds the
address of the instruction (40_step_cycle.md rule R75). No transfer faults when it executes (R79). -/

namespace Sys2Proof.Machine

/-- `JMP a`: `PC <- M[a]`, the whole signed word (R80). -/
def execJmp (a : Addr) (s : State) : Result := .next (setPc (operandInt s a) s)

/-- `JRP a`: `PC <- PC + M[a]`, exact (R81). -/
def execJrp (a : Addr) (s : State) : Result := .next (setPc (s.pc + operandInt s a) s)

/-- `CMP`: if `ACC < 0` then `PC <- PC + 1` (R82). The operand field is not read (R58). -/
def execCmp (_a : Addr) (s : State) : Result :=
  .next (if accNegative s then setPc (s.pc + 1) s else s)

end Sys2Proof.Machine
end

