-- ==== Sys2Proof/Machine/Stop.lean ====
section
/-! DEFINITION. The stop instruction (43_stop.md). -/

namespace Sys2Proof.Machine

/-- `STP`: `RUN <- false`. `PC` stays at the instruction (R100). The operand field is not read (R58). -/
def execStp (_a : Addr) (s : State) : Result := .next (setRun false s)

end Sys2Proof.Machine
end

