-- ==== Sys2Proof/Machine/Dispatch.lean ====
section
/-! DEFINITION. The dispatch table of 40_step_cycle.md rule R75: one arm per operation. -/

namespace Sys2Proof.Machine

def exec (i : Instr) (s : State) : Host.Outcome State Fault Refusal :=
  match i with
  | .jmp a => Sys2Proof.Machine.execJmp a s
  | .jrp a => Sys2Proof.Machine.execJrp a s
  | .ldn a => Sys2Proof.Machine.execLdn a s
  | .sto a => Sys2Proof.Machine.execSto a s
  | .sub a => Sys2Proof.Machine.execSub a s
  | .cmp a => Sys2Proof.Machine.execCmp a s
  | .stp a => Sys2Proof.Machine.execStp a s

end Sys2Proof.Machine
end

