-- ==== Sys2Proof/Machine/Step.lean ====
section
/-! DEFINITION. One step of the machine (40_step_cycle.md rule R70), and the host's way to place an
instruction. -/

namespace Sys2Proof.Machine

/-- `Step`, a total function of the engine's state (R70, R76). -/
def step (s : State) : Host.Outcome State Fault Refusal := cycle exec s

/-- The state with an instruction's word stored where the next step fetches, so that the step runs exactly it. -/
def State.withFetchWord (s : State) (nbits w : Nat) : State := placeFetchWord (tableWord nbits w) s

end Sys2Proof.Machine
end

