-- ==== Sys2Proof/Machine/Display.lean ====
section
/-! DEFINITION. The raw display view of a word and its digits (20_memory.md rules R32, R41), a formatting
of memory for the host that no instruction reads. -/

namespace Sys2Proof.Machine

/-- `rev32`: bit `i` of the result is bit `31 - i` of the argument (00_scope.md section 6). -/
def rev32 (u : BitVec 32) : BitVec 32 := u.reverse

/-- `raw(w) = rev32(u32(w))`, an unsigned number (R41). -/
def raw (w : Word) : Nat := (rev32 w).toNat

/-- The accessor for the raw view of `M[a]` (10_state.md rule R20). -/
def readRaw (s : State) (a : Addr) : Nat := raw (memRead s a)

/-- A binary digit. -/
def bitChar (b : Bool) : Char := if b then '1' else '0'

/-- The 32 binary digits of an unsigned number, the most significant first. -/
def binaryDigits (u : BitVec 32) : List Char := (List.range 32).map fun k => bitChar (u.getLsbD (31 - k))

/-- The digits of the raw view, the most significant digit of `raw(w)` first (R41). -/
def rawDigits (w : Word) : List Char := binaryDigits (rev32 w)

/-- The bits of a word, bit 0 first: the layout of a binary source line (R32). -/
def bitString (w : Word) : List Char := (List.range 32).map fun i => bitChar (w.getLsbD i)

end Sys2Proof.Machine
end

