-- ==== Sys2Proof/Machine/Image.lean ====
section
/-! DEFINITION. Images: the complete 32-word memory contents that the host gives an engine
(00_scope.md section 6, 10_state.md rule R18, 93_implementation_defined.md U24). -/

namespace Sys2Proof.Machine

/-- An image: exactly 32 words, the one at index `a` for address `a`. -/
abbrev Image := Vector Word 32

/-- `image(a)`. -/
def Image.get (image : Image) (a : Addr) : Word := image[a.toNat]'a.isLt

/-- `image[a] <- w` (45_program_loader.md rule R131). -/
def Image.set (image : Image) (a : Addr) (w : Word) : Image := Vector.set image a.toNat w a.isLt

/-- "A fresh 32-word memory image" in which every word is 0 (45_program_loader.md rule R131). -/
def zeroImage : Image := Vector.replicate 32 0

/-- A memory that holds the words of a list at the addresses from `n` on. -/
def Memory.ofWords : Nat → List Word → Memory
  | _, [] => []
  | n, w :: ws =>
    if w = unlistedWord then Memory.ofWords (n + 1) ws else (n, w) :: Memory.ofWords (n + 1) ws

/-- `M[a] <- image(a)` for every `a`: the engine's own memory, a value and no reference
(70_reset_and_hazards.md rule R160, 92_eei_decisions.md D24). -/
def Memory.ofImage (image : Image) : Memory := Memory.ofWords 0 image.toList

end Sys2Proof.Machine
end

