-- ==== Sys2Proof/Machine/Loader.lean ====
section
/-! DEFINITION. The program loader: the parser of one source line and the builder of the image
(45_program_loader.md). Both are pure functions and keep nothing between calls (R110). -/

namespace Sys2Proof.Machine

/-- A source line: a finite string of characters without line terminator, every one of which counts (R111). -/
abbrev Line := List Char

/-- The seven error kinds of the line parser (R123). -/
inductive LineError where
  /-- "Address token missing/non-numeric/out of [0,31]" (R118). -/
  | badAddress
  /-- "Line has neither a valid binary nor assembly shape (e.g., empty)" (R113). -/
  | badEntry
  /-- "Mnemonic requires an operand that is absent" (R120). -/
  | missingOperand
  /-- "Compare/Stop given an unexpected operand token", and more than one operand token (R120). -/
  | extraOperand
  /-- "Operand token present but not a valid integer", and an operand out of range (R119). -/
  | badOperand
  /-- "Mnemonic not recognized" (R120). -/
  | badInstruction
  /-- "Binary-form bit string not valid base-2 or wrong width" (R121). -/
  | badMemory
  deriving DecidableEq, Repr

/-- The result of `ParseLine` (R122). -/
inductive ParseResult where
  /-- The line defines a word. -/
  | ok (addr : Addr) (word : Word)
  /-- The line is refused. -/
  | err (kind : LineError)
  deriving DecidableEq, Repr

/-- The result of `LoadProgram`: an image, or an error with its line number, never both (R130). -/
inductive LoadResult where
  /-- The whole program was loaded. -/
  | ok (image : Image)
  /-- The first line that is refused, counted from 1. -/
  | err (kind : LineError) (lineNumber : Nat)
  deriving DecidableEq, Repr

/-- The value of a decimal digit `0` to `9`, nothing for any other character (R117). -/
def digitValue? (c : Char) : Option Nat :=
  if 48 ≤ c.toNat ∧ c.toNat ≤ 57 then some (c.toNat - 48) else none

/-- The decimal value of a string of digits that follow digits of value `acc` (R117). -/
def digitsValue? : Nat → List Char → Option Nat
  | acc, [] => some acc
  | acc, c :: cs =>
    match digitValue? c with
    | none => none
    | some d => digitsValue? (acc * 10 + d) cs

/-- The value of a number token: one digit or more, decimal, any length, nothing else (R117). -/
def numberToken? : List Char → Option Nat
  | [] => none
  | c :: cs => digitsValue? 0 (c :: cs)

/-- The address that an address or operand token names: a number token with value in 0 to 31 (R118, R119). -/
def addressToken? (t : List Char) : Option Addr := (numberToken? t).bind addrOfNat?

/-- The tokens of an assembly line, cut at every space: the first, and the others. Empty tokens count (R114). -/
def tokens : Line → List Char × List (List Char)
  | [] => ([], [])
  | c :: cs =>
    if c = ' ' then ([], (tokens cs).1 :: (tokens cs).2) else (c :: (tokens cs).1, (tokens cs).2)

/-- A line cut at its first colon, nothing where it has none (R112, R121). -/
def cutAtColon? : Line → Option (List Char × List Char)
  | [] => none
  | c :: cs => if c = ':' then some ([], cs) else (cutAtColon? cs).map fun p => (c :: p.1, p.2)

/-- The value of one binary digit (R121). -/
def bitValue? (c : Char) : Option Nat :=
  if c = '0' then some 0 else if c = '1' then some 1 else none

/-- The value of a string of binary digits, the least significant first (R121). -/
def bitsValue? : List Char → Option Nat
  | [] => some 0
  | c :: cs => (bitValue? c).bind fun b => (bitsValue? cs).map fun u => b + 2 * u

/-- The word of a bit token: exactly 32 binary digits, character `i` being bit `i` (R121). -/
def bitToken? (t : List Char) : Option Word :=
  if t.length = 32 then (bitsValue? t).map fun u => wrap32 u else none

/-- The mnemonics that take no operand, with operand 0 (R115). -/
def bareInstr? (m : List Char) : Option Instr :=
  if m = ['C', 'M', 'P'] then some (.cmp 0)
  else if m = ['S', 'T', 'P'] then some (.stp 0)
  else none

/-- The mnemonics that take one operand. `NUM` is another spelling of `JMP` (R115, R116). -/
def operandInstr? (m : List Char) : Option (Addr → Instr) :=
  if m = ['J', 'M', 'P'] then some .jmp
  else if m = ['J', 'R', 'P'] then some .jrp
  else if m = ['L', 'D', 'N'] then some .ldn
  else if m = ['S', 'T', 'O'] then some .sto
  else if m = ['S', 'U', 'B'] then some .sub
  else if m = ['N', 'U', 'M'] then some .jmp
  else none

/-- The binary grammar (R121): the address is checked before the bits. -/
def parseBinary (addrTok bitTok : List Char) : ParseResult :=
  match addressToken? addrTok with
  | none => .err .badAddress
  | some addr =>
    match bitToken? bitTok with
    | none => .err .badMemory
    | some w => .ok addr w

/-- What follows the mnemonic of an operand-taking instruction (R119, R120). -/
def parseOperands (addr : Addr) (mk : Addr → Instr) : List (List Char) → ParseResult
  | [] => .err .missingOperand
  | [t] =>
    match addressToken? t with
    | none => .err .badOperand
    | some a => .ok addr (encode (mk a))
  | _ :: _ :: _ => .err .extraOperand

/-- What follows a valid address in an assembly line (R120). -/
def parseInstr (addr : Addr) : List (List Char) → ParseResult
  | [] => .err .missingOperand
  | m :: operands =>
    match bareInstr? m with
    | some i => if operands.isEmpty then .ok addr (encode i) else .err .extraOperand
    | none =>
      match operandInstr? m with
      | none => .err .badInstruction
      | some mk => parseOperands addr mk operands

/-- The assembly grammar on a line's tokens (R114 to R120): the address is checked first. -/
def parseAssembly (addrTok : List Char) (rest : List (List Char)) : ParseResult :=
  match addressToken? addrTok with
  | none => .err .badAddress
  | some addr => parseInstr addr rest

/-- `ParseLine`, total on every string, with the checks in the order of R122. A colon anywhere selects the binary
grammar, and there is no way back from it (R112). -/
def parseLine (line : Line) : ParseResult :=
  if line.isEmpty then .err .badEntry
  else
    match cutAtColon? line with
    | some (addrTok, bitTok) => parseBinary addrTok bitTok
    | none => parseAssembly (tokens line).1 (tokens line).2

/-- The loader at line number `n` with the image built so far. A blank line, one of length zero, is skipped and
counted (R132). The first error ends the load (R133). -/
def loadFrom : Nat → Image → List Line → LoadResult
  | _, image, [] => .ok image
  | n, image, l :: ls =>
    if l.isEmpty then loadFrom (n + 1) image ls
    else
      match parseLine l with
      | .err kind => .err kind n
      | .ok addr word => loadFrom (n + 1) (Image.set image addr word) ls

/-- `LoadProgram` (R130 to R133). -/
def loadProgram (lines : List Line) : LoadResult := loadFrom 1 zeroImage lines

end Sys2Proof.Machine
end

