-- ==== Sys2Proof/Machine/Commands.lean ====
section
/-! DEFINITION. The host's commands and its read accessors (70_reset_and_hazards.md rules R160 to R165,
10_state.md rule R20). They are issued one at a time, between steps. -/

namespace Sys2Proof.Machine

/-- `NewEngine(image)`: the first fetch is from address 0 (R160). -/
def newEngine (image : Image) : State :=
  { pc := Config.initPc, acc := 0, run := true, fault := .none, mem := Memory.ofImage image }

/-- `Reset()`: the first fetch is from address 1, and memory is untouched (R161). -/
def resetEngine (s : State) : State :=
  setPc Config.resetPc (setAcc 0 (setRun true (setFault .none s)))

/-- `M[a] <- image(a)` for every `a`, nothing else (R162). -/
def replaceMemory (image : Image) (s : State) : State := { s with mem := Memory.ofImage image }

/-- `Reboot(image)`: "replaces memory wholesale, then performs Reset" (R162). -/
def reboot (image : Image) (s : State) : State := resetEngine (replaceMemory image s)

/-- The commands of the host that change an engine's state in one transition (R165). `Run` is the closure of
`step` (Machine/Run.lean). -/
inductive Command where
  /-- `Step()` (R70). -/
  | step
  /-- `Reset()` (R161). -/
  | reset
  /-- `Reboot(image)` (R162). -/
  | reboot (image : Image)
  deriving DecidableEq, Repr

/-- What a command does. None has a precondition (R163). -/
def applyCommand : Command → State → Result
  | .step, s => step s
  | .reset, s => .next (resetEngine s)
  | .reboot image, s => .next (reboot image s)

/-- `IsRunning()` (R15, R165). -/
def isRunning (s : State) : Bool := s.run

/-- The accessor for `PC` (R20). -/
def readPc (s : State) : Int := s.pc

/-- The accessor for `ACC`, a signed integer (R13, R20). -/
def readAcc (s : State) : Int := s.acc.toInt

/-- The accessor for `M[a]`, a signed integer (R18, R20). An address outside 0 to 31 is no argument of it
(93_implementation_defined.md U23). -/
def readWord (s : State) (a : Addr) : Int := (memRead s a).toInt

/-- The accessor for `FAULT` (R16, R20). -/
def readFault (s : State) : FaultLatch := s.fault

end Sys2Proof.Machine
end

