-- ==== Sys2Proof/Machine/Run.lean ====
section
/-! DEFINITION. `Run`, the closure of `step` that ends at a Halted state (40_step_cycle.md rules R77, R78). It
has no step limit of its own: `runFuel` is an executor under fuel, `RunsTo` the meaning. -/

namespace Sys2Proof.Machine

/-- Exactly `n` steps. -/
def stepN : Nat → State → Result
  | 0, s => .next s
  | n + 1, s =>
    match step s with
    | .next t => stepN n t
    | .fault f => .fault f
    | .refused r => .refused r

/-- `while RUN do Step`, with at most `fuel` steps: nothing where the engine is still Running then (R77). -/
def runFuel : Nat → State → Option State
  | 0, s => if s.run then none else some s
  | fuel + 1, s =>
    if s.run then
      match step s with
      | .next t => runFuel fuel t
      | .fault _ => none
      | .refused _ => none
    else some s

/-- `Run` on `s` returns with the state `t` (R77). It need not hold for any `t`. -/
def RunsTo (s t : State) : Prop := ∃ fuel, runFuel fuel s = some t

end Sys2Proof.Machine
end

