-- ==== Sys2Proof/Safety.lean ====
section
/-! DEFINITION. What counts as a safe run (60_exceptions.md rule R153), and the invariant of the reachable
states (10_state.md rules R12, R21). -/

namespace Sys2Proof.Machine

/-- Stopped: the only successful end of a run (R78, R153). -/
def State.stopped (s : State) : Prop := s.run = false ∧ s.fault = .none

/-- Faulted: an end that is never success (R78, R153). -/
def State.faulted (s : State) : Prop := s.run = false ∧ s.fault = .runawayProgramCounter

/-- A run from `s` is safe when it stops (R78). -/
def SafeRun (s t : State) : Prop := RunsTo s t ∧ t.stopped

/-- The address of the next fetch of a Running engine (40_step_cycle.md rule R72). -/
def nextFetch (s : State) : Int := s.pc + 1

/-- The next fetch of a Running engine is within memory, so that its step executes an instruction (R73). -/
def State.fetches (s : State) : Prop := s.run = true ∧ 0 ≤ nextFetch s ∧ nextFetch s ≤ 31

/-- The next step of a Running engine faults (R73). -/
def State.runsAway (s : State) : Prop := s.run = true ∧ ¬ (0 ≤ nextFetch s ∧ nextFetch s ≤ 31)

/-- The Running engine `s` goes on at address `x`: its next step executes the instruction there, and where there is no
such address it faults with `x` in `PC` (40_step_cycle.md rules R72 to R75, 60_exceptions.md rule R142). -/
def State.continuesAt (s : State) (x : Int) : Prop :=
  nextFetch s = x ∧
  (0 ≤ x ∧ x ≤ 31 → step s = exec (decode (memRead s (BitVec.ofInt 5 x))) { s with pc := x }) ∧
  (¬ (0 ≤ x ∧ x ≤ 31) → step s = .next { s with pc := x, run := false, fault := .runawayProgramCounter })

/-- The instruction at the address of the next fetch (R74). -/
def State.nextInstr (s : State) : Instr := decode (memRead s (BitVec.ofInt 5 (nextFetch s)))

/-- The state in which a meaning runs: the engine is Running, no fault is latched, and `PC` is the address of the
instruction (40_step_cycle.md rule R75). -/
structure State.Executing (s : State) : Prop where
  running : s.run = true
  noFault : s.fault = .none
  pcLow : 0 ≤ s.pc
  pcHigh : s.pc ≤ 31

/-- The invariant of the reachable states. The range of `PC` is that of R12. After a fault it reaches one
further, to 2^31 + 31, the value R12 gives for after the increment (95_test_vectors.md V56). -/
structure State.Inv (s : State) : Prop where
  /-- Memory is in its canonical form: 32 words and nothing besides (R18). -/
  memory : s.mem.wf = true
  /-- The lower bound of `PC` (R12). -/
  pcLow : -2147483648 ≤ s.pc
  /-- The upper bound of `PC` at the start of a step that is not the identity (R12). -/
  pcRunning : s.run = true → s.pc ≤ 2147483678
  /-- The upper bound of `PC` after any increment (R12). -/
  pcHigh : s.pc ≤ 2147483679
  /-- A latched fault means Halted (R16). -/
  faultHalts : s.fault = .runawayProgramCounter → s.run = false
  /-- A latched fault leaves the offending address in `PC` (R142). -/
  faultPc : s.fault = .runawayProgramCounter → ¬ (0 ≤ s.pc ∧ s.pc ≤ 31)
  /-- A Stopped engine stands at the `Stop` that ended it (R21). -/
  stoppedAtStop : s.stopped → 0 ≤ s.pc ∧ s.pc ≤ 31 ∧ ∃ a, decode (fetchWord s) = .stp a

/-- The states that the host's commands reach (R21). -/
inductive Reachable : State → Prop where
  | newEngine (image : Image) : Reachable (newEngine image)
  | command {s t : State} (c : Command) : Reachable s → applyCommand c s = .next t → Reachable t

end Sys2Proof.Machine
end

