-- ==== Sys2Proof/Certificates/Slice0/Obligations.lean ====
section
/-! DEFINITION. The statements for the provers. Where a docstring says that the spec marks a rule as its own decision
(D<n> of 92_eei_decisions.md) or as derived, the statement is 'derived' and cites no rule. Throughout, the opcode
numbers but 4 and 5 are D4, which of the two encodes `SUB` is D5, and that a fetch outside memory faults and what the
fault leaves are D2 and D3. -/

open Sys2Proof Sys2Proof.Machine

/-! ### Encoding -/

/-- Eight words written out from the spec's vectors V10a, V11a, V12b, V13a, V14a, V15a, V16a, V17c decode to the
instructions they stand for. The opcode numbers are the spec's decision D4. -/
def Obligations.SpecWordsDecodeToTheirInstructions : Prop :=
  decode 0b00000000000000000000000000011111#32 = .jmp 31 ∧
  decode 0b00000000000000000010000000001011#32 = .jrp 11 ∧
  decode 0b00000001000000000100000000011011#32 = .ldn 27 ∧
  decode 0b00000000000000000110000000010110#32 = .sto 22 ∧
  decode 0b00000000000000001000000000010101#32 = .sub 21 ∧
  decode 0b00000000000000001010000000001001#32 = .sub 9 ∧
  decode 0b00000000000000001100000000000001#32 = .cmp 1 ∧
  decode 0b11111111111111111111111111111111#32 = .stp 31

/-- R50: the one format. The opcode is bits 15 to 13, the operand bits 4 to 0, every other bit is ignored on decode and
zero on encode. -/
def Obligations.OneFormatWithUnusedBitsIgnored : Prop :=
  (∀ (w : Word) (i : Nat), i < 3 → (opcodeField w).getLsbD i = w.getLsbD (13 + i)) ∧
  (∀ (w : Word) (i : Nat), i < 5 → (operandField w).getLsbD i = w.getLsbD i) ∧
  (∀ w w' : Word, w &&& 0x0000E01F = w' &&& 0x0000E01F → decode w = decode w') ∧
  (∀ i : Instr, encode i &&& 0xFFFF1FE0 = 0)

/-- R51: `decode` on every word, by the unsigned fields of the word. -/
def Obligations.DecodeReadsOpcodeAndOperandFields : Prop :=
  (∀ w : Word, decode w = opOf (BitVec.ofNat 3 (u32 w / 2 ^ 13 % 8)) (BitVec.ofNat 5 (u32 w % 32))) ∧
  (∀ w : Word, (decode w).operand.toNat = u32 w % 32) ∧
  decode (wrap32 (-1)) = .stp 31

/-- R54: `encode` on every instruction, its range, the words with operand 0, and the word it never produces. -/
def Obligations.EncodePlacesCodeAndOperand : Prop :=
  (∀ i : Instr, (encode i).toInt = codeOf i * 8192 + i.operand.toNat) ∧
  (∀ a : Addr, codeOf (.jmp a) = 0 ∧ codeOf (.jrp a) = 1 ∧ codeOf (.ldn a) = 2 ∧ codeOf (.sto a) = 3 ∧
    codeOf (.sub a) = 4 ∧ codeOf (.cmp a) = 6 ∧ codeOf (.stp a) = 7) ∧
  (∀ i : Instr, 0 ≤ (encode i).toInt ∧ (encode i).toInt ≤ 57375) ∧
  encode (.jmp 0) = 0 ∧ encode (.jrp 0) = 8192 ∧ encode (.ldn 0) = 16384 ∧ encode (.sto 0) = 24576 ∧
  encode (.sub 0) = 32768 ∧ encode (.cmp 0) = 49152 ∧ encode (.stp 0) = 57344 ∧
  (∀ i : Instr, encode i ≠ 40960)

/-- The round-trip laws: decoding undoes encoding for every instruction with every operand, encoding a decoded word
gives a word that decodes identically, and gives the word itself exactly where its unused bits are zero and its opcode
field is not 5. The spec marks the last clause as derived. -/
def Obligations.DecodeAndEncodeAgree : Prop :=
  (∀ i : Instr, decode (encode i) = i) ∧
  (∀ w : Word, decode (encode (decode w)) = decode w) ∧
  (∀ w : Word, encode (decode w) = w ↔ canonicalWord w = true)

/-- R92: a word with opcode field 5 is `SUB` in every respect, and the codec and the assembly grammar never produce
one. -/
def Obligations.AliasOpcodeIsSubtractInEveryRespect : Prop :=
  (∀ w : Word, opcodeField w = 5 → decode w = .sub (operandField w)) ∧
  (∀ a : Addr, decode (wrap32 (40960 + a.toNat)) = .sub a ∧ decode (wrap32 (32768 + a.toNat)) = .sub a) ∧
  (∀ (w : Word) (s : State), opcodeField w = 5 → exec (decode w) s =
    .next { s with acc := wrap32 (s.acc.toInt - (memRead s (operandField w)).toInt) }) ∧
  (∀ i : Instr, opcodeField (encode i) ≠ 5) ∧
  (∀ w : Word, opcodeField w = 5 → renderChars (decode w) = ['S', 'U', 'B', ' '] ++ decimal (operandField w).toNat) ∧
  (∀ (line : Line) (a : Addr) (w : Word),
    (∀ c ∈ line, c ≠ ':') → parseLine line = .ok a w → opcodeField w ≠ 5)

/-! ### The step -/

/-- R72, R74: a step of a Running engine increments `PC` first, exactly, and where that is an address it executes the
instruction that the word there decodes to, with `PC` at it. -/
def Obligations.StepRunsTheInstructionAtTheIncrementedPc : Prop :=
  ∀ s : State,
    (s.fetches → step s = exec (decode (memRead s (BitVec.ofInt 5 (s.pc + 1)))) { s with pc := s.pc + 1 }) ∧
    (s.runsAway → ∃ t, step s = .next t ∧ t.pc = s.pc + 1)

/-- `Step` in full, with the effect of each operation on the whole state. That a Halted engine keeps its state is the
spec's decision D9, the fault outside memory D2 and D3. -/
def Obligations.StepInFull : Prop :=
  (∀ s : State, s.run = false → step s = .next s) ∧
  (∀ s : State, s.runsAway → step s = .next (raiseRunaway { s with pc := s.pc + 1 })) ∧
  (∀ w : Word, opcodeField w = 4 ∨ opcodeField w = 5 → decode w = .sub (operandField w)) ∧
  (∀ s : State, s.fetches → ∃ t, step s = .next t ∧
    match s.nextInstr with
    | .jmp a => t = { s with pc := (memRead s a).toInt }
    | .jrp a => t = { s with pc := s.pc + 1 + (memRead s a).toInt }
    | .ldn a => t = { s with pc := s.pc + 1, acc := wrap32 (0 - (memRead s a).toInt) }
    | .sto a => t = { s with pc := s.pc + 1, mem := t.mem } ∧
        ∀ b, memRead t b = if b = a then s.acc else memRead s b
    | .sub a => t = { s with pc := s.pc + 1, acc := wrap32 (s.acc.toInt - (memRead s a).toInt) }
    | .cmp _ => t = { s with pc := if s.acc.toInt < 0 then s.pc + 1 + 1 else s.pc + 1 }
    | .stp _ => t = { s with pc := s.pc + 1, run := false })

/-- From every state, a Halted or a runaway one too, the word that `withFetchWord` places is the instruction that the
next step runs, and from a state that fetches anyway only that word of memory differs. This is the model's own
operation (notes/assumptions/4.md). -/
def Obligations.PlacedWordIsWhatTheNextStepRuns : Prop :=
  ∀ (s : State) (n : Nat),
    (∃ t : State, t.run = true ∧ 0 ≤ t.pc ∧ t.pc ≤ 31 ∧ t.acc = s.acc ∧
      step (s.withFetchWord 32 n) = exec (decode (BitVec.ofNat 32 n)) t) ∧
    (s.fetches → (s.withFetchWord 32 n) = { s with mem := (s.withFetchWord 32 n).mem } ∧
      ∀ b : Addr, memRead (s.withFetchWord 32 n) b =
        if b = BitVec.ofInt 5 (nextFetch s) then BitVec.ofNat 32 n else memRead s b)

/-! ### The instructions -/

/-- R80: `JMP a`, its result on the whole state, its word, where execution goes on, and the cases of a jump that reads
its own word and of the word 0. -/
def Obligations.JumpGoesToTheAddressAfterTheWordNamed : Prop :=
  ∀ (a : Addr) (s : State),
    exec (.jmp a) s = .next { s with pc := (memRead s a).toInt } ∧
    (encode (.jmp a)).toInt = a.toNat ∧
    (s.run = true →
      State.continuesAt { s with pc := (memRead s a).toInt } ((memRead s a).toInt + 1)) ∧
    (memRead s a = encode (.jmp a) → exec (.jmp a) s = .next { s with pc := a.toNat }) ∧
    decode 0 = .jmp 0

/-- `JRP a`: its result on the whole state, its word, where execution goes on. That the sum does not wrap is the spec's
decision D6. -/
def Obligations.RelativeJumpAddsTheWordNamedExactly : Prop :=
  ∀ (a : Addr) (s : State),
    exec (.jrp a) s = .next { s with pc := s.pc + (memRead s a).toInt } ∧
    (encode (.jrp a)).toInt = 8192 + a.toNat ∧
    (s.run = true →
      State.continuesAt { s with pc := s.pc + (memRead s a).toInt } (s.pc + (memRead s a).toInt + 1)) ∧
    (memRead s a = encode (.jrp a) → s.pc = a.toNat →
      exec (.jrp a) s = .next { s with pc := s.pc + 8192 + s.pc })

/-- R82: `CMP`, its result on the whole state, what `ACC < 0` is, that the operand is ignored, its word, the word that
source text produces, and where execution goes on. -/
def Obligations.CompareSkipsExactlyWhenTheAccumulatorIsNegative : Prop :=
  (∀ (a : Addr) (s : State),
    exec (.cmp a) s = .next { s with pc := if s.acc.toInt < 0 then s.pc + 1 else s.pc } ∧
    (s.acc.toInt < 0 ↔ s.acc.getLsbD 31 = true) ∧
    (∀ b : Addr, exec (.cmp b) s = exec (.cmp a) s) ∧
    (encode (.cmp a)).toInt = 49152 + a.toNat ∧
    (s.run = true → State.continuesAt { s with pc := if s.acc.toInt < 0 then s.pc + 1 else s.pc }
      (if s.acc.toInt < 0 then s.pc + 2 else s.pc + 1))) ∧
  (∀ (addrTok : List Char) (addr : Addr), addressToken? addrTok = some addr →
    parseLine (addrTok ++ [' ', 'C', 'M', 'P']) = .ok addr 49152)

/-- `LDN a`: its result on the whole state, exact but for the most negative word, whose negation wraps by the spec's
decision D8, its word, and the case of an instruction that loads itself. -/
def Obligations.LoadNegativeNegatesTheWordNamed : Prop :=
  ∀ (a : Addr) (s : State), ∃ v : Word,
    exec (.ldn a) s = .next { s with acc := v } ∧
    v = wrap32 (0 - (memRead s a).toInt) ∧
    ((memRead s a).toInt ≠ -2147483648 → v.toInt = -(memRead s a).toInt) ∧
    ((memRead s a).toInt = -2147483648 → v.toInt = -2147483648) ∧
    (encode (.ldn a)).toInt = 16384 + a.toNat ∧
    (memRead s a = encode (.ldn a) → v.toInt = -(16384 + a.toNat))

/-- R91: `SUB a`, its result on the whole state, the wrapped difference in each of the three ranges of the exact one,
its word, and the word that source text produces. -/
def Obligations.SubtractWrapsSilently : Prop :=
  (∀ (a : Addr) (s : State), ∃ v : Word,
    exec (.sub a) s = .next { s with acc := v } ∧
    v = wrap32 (s.acc.toInt - (memRead s a).toInt) ∧
    (2147483648 ≤ s.acc.toInt - (memRead s a).toInt →
      v.toInt = s.acc.toInt - (memRead s a).toInt - 4294967296) ∧
    (s.acc.toInt - (memRead s a).toInt < -2147483648 →
      v.toInt = s.acc.toInt - (memRead s a).toInt + 4294967296) ∧
    (-2147483648 ≤ s.acc.toInt - (memRead s a).toInt ∧ s.acc.toInt - (memRead s a).toInt < 2147483648 →
      v.toInt = s.acc.toInt - (memRead s a).toInt) ∧
    (encode (.sub a)).toInt = 32768 + a.toNat) ∧
  (∀ (addrTok opTok : List Char) (addr n : Addr),
    addressToken? addrTok = some addr → addressToken? opTok = some n →
    parseLine (addrTok ++ [' ', 'S', 'U', 'B', ' '] ++ opTok) = .ok addr (wrap32 (32768 + n.toNat)))

/-- R93: `STO a`, its result on the whole state and every word of memory, its word, and the word just stored as the next
instruction. -/
def Obligations.StoreWritesTheAccumulatorToTheWordNamed : Prop :=
  ∀ (a : Addr) (s : State), ∃ t : State,
    exec (.sto a) s = .next t ∧
    t = { s with mem := t.mem } ∧
    memRead t a = s.acc ∧
    (∀ b : Addr, b ≠ a → memRead t b = memRead s b) ∧
    (encode (.sto a)).toInt = 24576 + a.toNat ∧
    (s.run = true → s.pc + 1 = a.toNat → step t = exec (decode s.acc) { t with pc := a.toNat })

/-- R100: `STP`, its result on the whole state, its word and the word that source text produces, that nothing but a
reset or a reboot undoes it, that every later step and `Run` do nothing, and that the word of all ones is `STP`. -/
def Obligations.StopHaltsUntilResetOrReboot : Prop :=
  (∀ (a : Addr) (s : State),
    exec (.stp a) s = .next { s with run := false } ∧
    (encode (.stp a)).toInt = 57344 + a.toNat ∧
    (∀ n : Nat, stepN n { s with run := false } = .next { s with run := false }) ∧
    RunsTo { s with run := false } { s with run := false } ∧
    (∀ (c : Command) (t : State), applyCommand c { s with run := false } = .next t → t.run = true →
      c = .reset ∨ ∃ image, c = .reboot image)) ∧
  (∀ (addrTok : List Char) (addr : Addr), addressToken? addrTok = some addr →
    parseLine (addrTok ++ [' ', 'S', 'T', 'P']) = .ok addr 57344) ∧
  decode (wrap32 (-1)) = .stp 31

/-! ### Frames -/

/-- `JMP`, `JRP` and `CMP` change nothing but `PC`: not the accumulator, the running flag, the fault latch, nor any word
of memory. -/
def Obligations.ControlTransferFrame : Prop :=
  ∀ (i : Instr) (a : Addr) (s t : State), i = .jmp a ∨ i = .jrp a ∨ i = .cmp a → exec i s = .next t →
    t.acc = s.acc ∧ t.run = s.run ∧ t.fault = s.fault ∧ ∀ b : Addr, memRead t b = memRead s b

/-- `LDN` and `SUB` change nothing but the accumulator. -/
def Obligations.AccumulatorArithmeticFrame : Prop :=
  ∀ (i : Instr) (a : Addr) (s t : State), i = .ldn a ∨ i = .sub a → exec i s = .next t →
    t.pc = s.pc ∧ t.run = s.run ∧ t.fault = s.fault ∧ ∀ b : Addr, memRead t b = memRead s b

/-- `STO` changes no register, and no word but the one at its effective address. -/
def Obligations.StoreFrame : Prop :=
  ∀ (a d : Addr) (s t : State), exec (.sto a) s = .next t → effectiveAddress a = d →
    t.pc = s.pc ∧ t.acc = s.acc ∧ t.run = s.run ∧ t.fault = s.fault ∧
    memRead t d = s.acc ∧ ∀ b : Addr, b ≠ d → memRead t b = memRead s b

/-- `STP` changes nothing but the running flag. -/
def Obligations.StopFrame : Prop :=
  ∀ (a : Addr) (s t : State), exec (.stp a) s = .next t →
    t.pc = s.pc ∧ t.acc = s.acc ∧ t.fault = s.fault ∧ ∀ b : Addr, memRead t b = memRead s b

/-! ### Registers over all instructions -/

/-- R13: of all steps, only those of `LDN` and `SUB` write the accumulator, and only `SUB`, `STO` and `CMP` read it: with
another value in it, every other instruction does the same to all other state, `LDN` gives it the very same value and
the rest leave the other value in it. That it always holds a word is its type. -/
def Obligations.AccumulatorIsWrittenAndReadOnlyAsListed : Prop :=
  (∀ s t : State, step s = .next t → t.acc ≠ s.acc →
    s.fetches ∧ ∃ a, s.nextInstr = .ldn a ∨ s.nextInstr = .sub a) ∧
  (∀ (i : Instr) (s t : State) (x : Word), (∀ a, i ≠ .sub a ∧ i ≠ .sto a ∧ i ≠ .cmp a) → exec i s = .next t →
    ∃ u, exec i (setAcc x s) = .next u ∧ u.pc = t.pc ∧ u.run = t.run ∧ u.fault = t.fault ∧ u.mem = t.mem ∧
      ((∃ a, i = .ldn a) → u.acc = t.acc) ∧ ((∀ a, i ≠ .ldn a) → u.acc = x)) ∧
  (∀ s : State, -2147483648 ≤ s.acc.toInt ∧ s.acc.toInt ≤ 2147483647)

/-- R15: only `STP` and the runaway fault clear the running flag, only construction, reset and reboot set it, a Halted
engine takes no step that changes state, the host reads the flag, and no instruction reads it. -/
def Obligations.RunningFlagChangesOnlyAsListed : Prop :=
  (∀ s t : State, step s = .next t → s.run = true →
    (t.run = false ↔ s.runsAway ∨ (s.fetches ∧ ∃ a, s.nextInstr = .stp a))) ∧
  (∀ (s : State) (n : Nat), s.run = false → stepN n s = .next s) ∧
  (∀ (c : Command) (s t : State), applyCommand c s = .next t → s.run = false → t.run = true →
    c = .reset ∨ ∃ image, c = .reboot image) ∧
  (∀ (image : Image) (s : State),
    (newEngine image).run = true ∧ (resetEngine s).run = true ∧ (reboot image s).run = true) ∧
  (∀ s : State, isRunning s = s.run) ∧
  (∀ (i : Instr) (s t : State) (b : Bool), exec i s = .next t →
    ∃ u, exec i (setRun b s) = .next u ∧ u.pc = t.pc ∧ u.acc = t.acc ∧ u.fault = t.fault ∧ u.mem = t.mem)

/-- The fault latch is set only by the runaway fault, no step clears it, and construction, reset and reboot do. The latch
is the spec's own decision D3. -/
def Obligations.FaultLatchChangesOnlyAsListed : Prop :=
  (∀ s t : State, step s = .next t → t.fault ≠ s.fault →
    s.runsAway ∧ t.fault = .runawayProgramCounter) ∧
  (∀ (s t : State) (n : Nat), s.fault = .runawayProgramCounter → stepN n s = .next t →
    t.fault = .runawayProgramCounter) ∧
  (∀ (image : Image) (s : State),
    (newEngine image).fault = .none ∧ (resetEngine s).fault = .none ∧ (reboot image s).fault = .none)

/-! ### The one exception -/

/-- Taking the fault: the engine halts, the latch records why, `PC` keeps the address that the increment gave, and
nothing else changes. The policy and the latch are the spec's own decisions D2 and D3. -/
def Obligations.RunawayFaultHaltsAndKeepsTheAddress : Prop :=
  ∀ s : State, s.runsAway →
    step s = .next { s with pc := s.pc + 1, run := false, fault := .runawayProgramCounter }

/-- The fault is raised exactly by a fetch address outside 0 to 31, never by the operation of an instruction. The address
stays in `PC`, and nothing but `PC`, the flag and the latch changes. Which instructions lead to it, and that no start
does. The policy and the latch are the spec's own decisions D2 and D3. -/
def Obligations.RunawayIsTheOnlyExceptionAndHasTheseCauses : Prop :=
  (∀ s t : State, step s = .next t → s.fault = .none →
    (t.fault = .runawayProgramCounter ↔ s.run = true ∧ (s.pc + 1 < 0 ∨ 31 < s.pc + 1))) ∧
  (∀ s t : State, step s = .next t → s.runsAway →
    t.pc = s.pc + 1 ∧ t.acc = s.acc ∧ t.mem = s.mem ∧ t.fault = .runawayProgramCounter) ∧
  (∀ (i : Instr) (s t : State), exec i s = .next t → t.fault = s.fault) ∧
  (∀ (i : Instr) (s t : State), s.Executing → exec i s = .next t →
    (t.runsAway ↔
      match i with
      | .jmp a => ¬ (-1 ≤ (memRead s a).toInt ∧ (memRead s a).toInt ≤ 30)
      | .jrp a => ¬ (-1 ≤ s.pc + (memRead s a).toInt ∧ s.pc + (memRead s a).toInt ≤ 30)
      | .cmp _ => s.pc = 31 ∨ (s.pc = 30 ∧ s.acc.toInt < 0)
      | .ldn _ => s.pc = 31
      | .sub _ => s.pc = 31
      | .sto _ => s.pc = 31
      | .stp _ => False)) ∧
  (∀ (image : Image) (s : State),
    ¬ (newEngine image).runsAway ∧ ¬ (resetEngine s).runsAway ∧ ¬ (reboot image s).runsAway)

/-! ### Hazards -/

/-- R170, R171, R172: after a jump the word its operand names, never the operand, decides where execution goes on: at
that word plus one, or for the relative jump at the following address plus that word. -1 sends `JMP` to 0 and 31 makes it
fault. -/
def Obligations.JumpsAreIndirectAndOffByOne : Prop :=
  ∀ (s t : State) (a : Addr), s.fetches → step s = .next t →
    (s.nextInstr = .jmp a → t.continuesAt ((memRead s a).toInt + 1) ∧
      ((memRead s a).toInt = -1 → nextFetch t = 0) ∧
      ((memRead s a).toInt = 31 → ∃ u, step t = .next u ∧ u.faulted ∧ u.pc = 32)) ∧
    (s.nextInstr = .jrp a → t.continuesAt (nextFetch s + (memRead s a).toInt + 1))

/-- R174: the step after a `STO` fetches the word just stored if it fetches from that address, and no copy of the old
word survives. -/
def Obligations.StoreToCodeTakesEffectAtOnce : Prop :=
  ∀ (s t : State) (a : Addr), s.fetches → s.nextInstr = .sto a → step s = .next t →
    memRead t a = s.acc ∧
    (nextFetch t = a.toNat → step t = exec (decode s.acc) { t with pc := a.toNat }) ∧
    (∀ u : State, u.mem = t.mem → u.fetches → nextFetch u = a.toNat → u.nextInstr = decode s.acc)

/-- A `CMP` after a `SUB` tests the wrapped difference: it skips exactly when the exact difference is negative without
overflow, or too large by overflow. -/
def Obligations.CompareAfterSubtractTestsTheWrappedDifference : Prop :=
  ∀ (s t u : State) (a b : Addr), exec (.sub a) s = .next t → exec (.cmp b) t = .next u →
    (u.pc = s.pc + 1 ↔
      (-2147483648 ≤ s.acc.toInt - (memRead s a).toInt ∧ s.acc.toInt - (memRead s a).toInt < 0) ∨
      2147483648 ≤ s.acc.toInt - (memRead s a).toInt)

/-- `wrap32(v)` is the unique word congruent to `v` modulo 2^32, and the two arithmetic operations on words are the
two's-complement ones. -/
def Obligations.WrapIsTheUniqueCongruentWord : Prop :=
  (∀ v : Int, (4294967296 : Int) ∣ (wrap32 v).toInt - v) ∧
  (∀ (v : Int) (w : Word), (4294967296 : Int) ∣ w.toInt - v → w = wrap32 v) ∧
  (∀ x y : Word, subtractWrap x y = x - y) ∧
  (∀ x : Word, negateWrap x = -x)

/-! ### Memory -/

/-- Two memories in canonical form that read the same at all 32 addresses are equal data, so writing the word that is
already there changes nothing. The list form of memory is the model's own (notes/assumptions/1.md). -/
def Obligations.CanonicalMemoryIsDeterminedByItsWords : Prop :=
  (∀ m m' : Memory, m.wf = true → m'.wf = true →
    (∀ a : Addr, Memory.get m a.toNat = Memory.get m' a.toNat) → m = m') ∧
  (∀ (s : State) (a : Addr), s.mem.wf = true → memWrite a (memRead s a) s = s)

/-! ### Initialisation -/

/-- `NewEngine(image)`. The start value of `PC` is the spec's decision D7. -/
def Obligations.NewEngineStartsBeforeAddressZero : Prop :=
  ∀ image : Image,
    (newEngine image).pc = -1 ∧ (newEngine image).acc = 0 ∧ (newEngine image).run = true ∧
    (newEngine image).fault = .none ∧ (∀ a : Addr, memRead (newEngine image) a = Image.get image a) ∧
    (newEngine image).continuesAt 0

/-- `Reset()`. The start value of `PC` is the spec's decision D7. -/
def Obligations.ResetKeepsMemory : Prop :=
  ∀ s : State,
    (resetEngine s).pc = 0 ∧ (resetEngine s).acc = 0 ∧ (resetEngine s).run = true ∧
    (resetEngine s).fault = .none ∧ (∀ a : Addr, memRead (resetEngine s) a = memRead s a) ∧
    (resetEngine s).continuesAt 1

/-- R162: `Reboot(image)` in any state. -/
def Obligations.RebootReplacesMemoryThenResets : Prop :=
  ∀ (image : Image) (s : State),
    (reboot image s).pc = 0 ∧ (reboot image s).acc = 0 ∧ (reboot image s).run = true ∧
    (reboot image s).fault = .none ∧ (∀ a : Addr, memRead (reboot image s) a = Image.get image a) ∧
    reboot image s = resetEngine { s with mem := (reboot image s).mem } ∧
    (reboot image s).continuesAt 1

/-- R177: `Reset` does not reload, and its entry address is 1. `Reboot` with the original image restores every word and
the same start, whatever ran before. There is an image that runs one step after which a reset does not restore it. -/
def Obligations.ResetDoesNotReloadAndRebootDoes : Prop :=
  (∀ s : State, (resetEngine s).mem = s.mem ∧ nextFetch (resetEngine s) = 1) ∧
  (∀ (image : Image) (s : State), reboot image s = resetEngine (newEngine image) ∧
    ∀ a : Addr, memRead (reboot image s) a = Image.get image a) ∧
  (∃ (image : Image) (t : State) (a : Addr), step (newEngine image) = .next t ∧
    memRead (resetEngine t) a ≠ Image.get image a)

/-- With word 0 of the image left as 0, the first step of a constructed engine leads to the very state that a reset of it
gives, so that both starts run the same program. The spec derives this. -/
def Obligations.ConstructedEngineJoinsResetAfterAZeroWord : Prop :=
  ∀ image : Image, Image.get image 0 = 0 →
    step (newEngine image) = .next (resetEngine (newEngine image)) ∧
    ∀ (n : Nat), stepN (n + 1) (newEngine image) = stepN n (resetEngine (newEngine image))

/-! ### Invariants and runs -/

/-- The state that the host's interface calls reset is the constructed engine on the image of zeros, and it meets the
invariant. That this start stands for reset is the model's choice (notes/assumptions/2.md). -/
def Obligations.ResetStateMeetsTheInvariant : Prop :=
  State.reset = newEngine zeroImage ∧ State.reset.Inv

/-- From every state that meets the invariant, a step gives a state that meets it: memory stays canonical, `PC` in its
range, a latched fault Halted at a bad address, a Stopped engine at its `Stop`. The spec derives these bounds. -/
def Obligations.StepKeepsTheInvariant : Prop :=
  ∀ s t : State, s.Inv → step s = .next t → t.Inv

/-- Every constructed engine meets the invariant, every command of the host keeps it, from any state, and so every state
that the commands reach meets it. The spec derives it. -/
def Obligations.ReachableStatesMeetTheInvariant : Prop :=
  (∀ image : Image, (newEngine image).Inv) ∧
  (∀ (c : Command) (s t : State), s.Inv → applyCommand c s = .next t → t.Inv) ∧
  (∀ s : State, Reachable s → s.Inv)

/-- `Run` returns only in a Halted state, returns a Halted state at once, has at most one result, and is the closure of
`Step` that ends at a Halted state. Its want of a limit is the spec's decision D21. -/
def Obligations.RunIsTheClosureOfStepToAHaltedState : Prop :=
  (∀ s t : State, RunsTo s t → t.run = false) ∧
  (∀ s t : State, s.run = false → (RunsTo s t ↔ t = s)) ∧
  (∀ s t u : State, RunsTo s t → RunsTo s u → t = u) ∧
  (∀ s t : State, RunsTo s t ↔ t.run = false ∧ ∃ n, stepN n s = .next t)

/-- A run ends in one of two ways: Stopped, with `PC` at the `Stop`, or Faulted, with `PC` at the offending address. The
spec derives it. -/
def Obligations.RunEndsStoppedAtAStopOrFaultedAtABadAddress : Prop :=
  ∀ s t : State, s.Inv → RunsTo s t →
    (t.stopped ∧ ¬ t.faulted ∧ 0 ≤ t.pc ∧ t.pc ≤ 31 ∧ ∃ a, decode (memRead t (BitVec.ofInt 5 t.pc)) = .stp a) ∨
    (t.faulted ∧ ¬ t.stopped ∧ (t.pc < 0 ∨ 31 < t.pc))

/-- A Running engine always has a next step, and one whose step leads back to the same state never stops: `Run` has no
result there. The want of a limit is the spec's decision D21. -/
def Obligations.OneInstructionLoopNeverReturns : Prop :=
  (∀ s : State, ∃ t, step s = .next t) ∧
  (∀ s : State, s.run = true → step s = .next s → (∀ n : Nat, stepN n s = .next s) ∧ ∀ t, ¬ RunsTo s t)

/-! ### Display -/

/-- R41: the raw view reverses the bits of a word, is its own inverse, shows bit 0 at the left, and the spec's
example. -/
def Obligations.RawViewReversesTheBits : Prop :=
  (∀ (w : Word) (i : Nat), i < 32 → (raw w).testBit i = w.getLsbD (31 - i)) ∧
  (∀ w : Word, raw w < 2 ^ 32) ∧
  (∀ u : BitVec 32, rev32 (rev32 u) = u) ∧
  (∀ w : Word, wrap32 (rev32 (BitVec.ofNat 32 (raw w))).toNat = w) ∧
  (∀ w : Word, rawDigits w = bitString w) ∧
  raw 5 = 2684354560 ∧
  rawDigits 5 = '1' :: '0' :: '1' :: List.replicate 29 '0'

/-! ### The loader -/

/-- A colon anywhere selects the binary grammar and a line without colon the assembly grammar, both with the address token
first. That the cut is at the first colon is R121 and the spec's decision D19 (notes/assumptions/21.md). -/
def Obligations.ColonSelectsTheGrammar : Prop :=
  (∀ pre post : Line, (∀ c ∈ pre, c ≠ ':') → parseLine (pre ++ ':' :: post) = parseBinary pre post) ∧
  (∀ line : Line, line ≠ [] → (∀ c ∈ line, c ≠ ':') →
    parseLine line = parseAssembly (tokens line).1 (tokens line).2) ∧
  (∀ line : Line, line ≠ [] → ((∃ c ∈ line, c = ':') ↔ ∃ p, cutAtColon? line = some p))

/-- R113: the empty line is `BadEntry` for the line parser, and the loader never reports that kind. -/
def Obligations.BadEntryIsOnlyTheEmptyLine : Prop :=
  parseLine [] = .err .badEntry ∧
  (∀ line : Line, parseLine line = .err .badEntry → line = []) ∧
  (∀ (lines : List Line) (n : Nat), loadProgram lines ≠ .err .badEntry n)

/-- A number token is one digit or more and nothing else, and its value is decimal, whatever the leading zeros. The
spelling is the spec's decision D12. -/
def Obligations.NumberTokensAreDecimalDigits : Prop :=
  (∀ (t : List Char) (n : Nat), numberToken? t = some n ↔
    t ≠ [] ∧ (∀ c ∈ t, 48 ≤ c.toNat ∧ c.toNat ≤ 57) ∧ n = t.foldl (fun v c => v * 10 + (c.toNat - 48)) 0) ∧
  (∀ (t : List Char) (a : Addr), addressToken? t = some a ↔ numberToken? t = some a.toNat) ∧
  (∀ (t : List Char) (a : Addr), addressToken? t = some a → addressToken? ('0' :: t) = some a)

/-- Cutting an assembly line at its spaces gives one token more than there are spaces, and loses nothing. The separator
is the spec's decision D14. -/
def Obligations.TokensAreCutAtEverySpace : Prop :=
  ∀ line : Line,
    (tokens line).2.length = line.count ' ' ∧
    (tokens line).1 ++ (tokens line).2.flatMap (fun t => ' ' :: t) = line ∧
    (∀ t ∈ (tokens line).1 :: (tokens line).2, ∀ c ∈ t, c ≠ ' ')

/-- R115: the word of each mnemonic, the operand tokens each requires, the errors where they are not met, and that the
grammar produces only canonical words. -/
def Obligations.MnemonicsProduceTheirWords : Prop :=
  (∀ (addrTok opTok : List Char) (addr n : Addr),
    addressToken? addrTok = some addr → addressToken? opTok = some n →
    parseLine (addrTok ++ [' ', 'J', 'M', 'P', ' '] ++ opTok) = .ok addr (wrap32 n.toNat) ∧
    parseLine (addrTok ++ [' ', 'J', 'R', 'P', ' '] ++ opTok) = .ok addr (wrap32 (8192 + n.toNat)) ∧
    parseLine (addrTok ++ [' ', 'L', 'D', 'N', ' '] ++ opTok) = .ok addr (wrap32 (16384 + n.toNat)) ∧
    parseLine (addrTok ++ [' ', 'S', 'T', 'O', ' '] ++ opTok) = .ok addr (wrap32 (24576 + n.toNat)) ∧
    parseLine (addrTok ++ [' ', 'S', 'U', 'B', ' '] ++ opTok) = .ok addr (wrap32 (32768 + n.toNat)) ∧
    parseLine (addrTok ++ [' ', 'N', 'U', 'M', ' '] ++ opTok) = .ok addr (wrap32 n.toNat)) ∧
  (∀ (addrTok : List Char) (addr : Addr), addressToken? addrTok = some addr →
    parseLine (addrTok ++ [' ', 'C', 'M', 'P']) = .ok addr 49152 ∧
    parseLine (addrTok ++ [' ', 'S', 'T', 'P']) = .ok addr 57344) ∧
  (∀ (addrTok rest : List Char) (addr : Addr), addressToken? addrTok = some addr → (∀ c ∈ rest, c ≠ ':') →
    parseLine (addrTok ++ [' ', 'C', 'M', 'P', ' '] ++ rest) = .err .extraOperand ∧
    parseLine (addrTok ++ [' ', 'S', 'T', 'P', ' '] ++ rest) = .err .extraOperand) ∧
  (∀ (addrTok m : List Char) (addr : Addr), addressToken? addrTok = some addr →
    m ∈ [['J', 'M', 'P'], ['J', 'R', 'P'], ['L', 'D', 'N'], ['S', 'T', 'O'], ['S', 'U', 'B'], ['N', 'U', 'M']] →
    parseLine (addrTok ++ ' ' :: m) = .err .missingOperand ∧
    ∀ opTok : List Char, (∀ c ∈ opTok, c ≠ ':' ∧ c ≠ ' ') →
      (numberToken? opTok = none → parseLine (addrTok ++ ' ' :: m ++ ' ' :: opTok) = .err .badOperand) ∧
      ∀ rest : List Char, (∀ c ∈ rest, c ≠ ':') →
        ∃ kind, parseLine (addrTok ++ ' ' :: m ++ ' ' :: opTok ++ ' ' :: rest) = .err kind) ∧
  (∀ (line : Line) (a : Addr) (w : Word), (∀ c ∈ line, c ≠ ':') → parseLine line = .ok a w →
    canonicalWord w = true ∧ ∃ i : Instr, i.sourceForm = true ∧ w = encode i)

/-- R116: `NUM` is another spelling of `JMP` whatever follows it, its word is the number itself, which decodes to that
jump, and no other number than 0 to 31 can be written with it. -/
def Obligations.NumIsAnotherSpellingOfJmp : Prop :=
  (∀ addrTok rest : List Char, (∀ c ∈ addrTok, c ≠ ' ' ∧ c ≠ ':') →
    parseLine (addrTok ++ [' ', 'N', 'U', 'M'] ++ rest) = parseLine (addrTok ++ [' ', 'J', 'M', 'P'] ++ rest)) ∧
  (∀ (addrTok opTok : List Char) (addr n : Addr),
    addressToken? addrTok = some addr → addressToken? opTok = some n →
    parseLine (addrTok ++ [' ', 'N', 'U', 'M', ' '] ++ opTok) = .ok addr (wrap32 n.toNat) ∧
    decode (wrap32 n.toNat) = .jmp n) ∧
  (∀ (addrTok opTok : List Char) (addr a : Addr) (w : Word), addressToken? addrTok = some addr →
    parseLine (addrTok ++ [' ', 'N', 'U', 'M', ' '] ++ opTok) = .ok a w → a = addr ∧ u32 w ≤ 31)

/-- Every one of the 2^32 words has a binary line that defines it, its bits least significant first, and a bit token of
another length, or with another character, is refused. The shape of the line is the spec's decision D19. -/
def Obligations.BinaryLineDefinesEveryWord : Prop :=
  (∀ (addrTok : List Char) (addr : Addr) (w : Word), addressToken? addrTok = some addr →
    parseLine (addrTok ++ ':' :: bitString w) = .ok addr w) ∧
  (∀ (addrTok bits : List Char) (addr : Addr), addressToken? addrTok = some addr →
    bits.length ≠ 32 ∨ (∃ c ∈ bits, c ≠ '0' ∧ c ≠ '1') →
    parseLine (addrTok ++ ':' :: bits) = .err .badMemory)

/-- An address in decimal, a space and the rendered text of an instruction that source text can write are an assembly line
that defines the word of that instruction. The text of `render` is the spec's decision D22. -/
def Obligations.RenderedInstructionAssemblesToItsWord : Prop :=
  ∀ (addr : Addr) (i : Instr), i.sourceForm = true →
    parseLine (decimal addr.toNat ++ ' ' :: renderChars i) = .ok addr (encode i)

/-- R133: a load ends in an error exactly when some line is refused, with the kind of the first such line and its
position, blank lines counted. -/
def Obligations.FirstBadLineAbortsTheLoad : Prop :=
  ∀ (lines : List Line) (kind : LineError) (n : Nat),
    loadProgram lines = .err kind n ↔
      ∃ pre bad post, lines = pre ++ bad :: post ∧ n = pre.length + 1 ∧ bad ≠ [] ∧
        parseLine bad = .err kind ∧ ∀ l ∈ pre, l = [] ∨ ∃ a w, parseLine l = .ok a w

/-- R131: a load that succeeds gives an image in which each word is what the last line for its address defines, and 0
where no line does, and a program in which every line is blank or parses does load. -/
def Obligations.LastDefinitionOfAnAddressWins : Prop :=
  (∀ (lines : List Line) (image : Image) (a : Addr), loadProgram lines = .ok image →
    (∃ pre l post w, lines = pre ++ l :: post ∧ parseLine l = .ok a w ∧
      (∀ m ∈ post, ∀ v, parseLine m ≠ .ok a v) ∧ Image.get image a = w) ∨
    ((∀ m ∈ lines, ∀ v, parseLine m ≠ .ok a v) ∧ Image.get image a = 0)) ∧
  (∀ lines : List Line, (∀ l ∈ lines, l = [] ∨ ∃ a w, parseLine l = .ok a w) →
    ∃ image, loadProgram lines = .ok image) ∧
  loadProgram [] = .ok zeroImage

/-- Each of the seven error kinds of the line parser, exactly where its check is the first to fail. The order of the checks
is the spec's decision D17, the kinds for too few and too many tokens D15 and D16, the range of an operand D13, the shape of
a binary line D19 (notes/assumptions/17.md, 19.md, 21.md). -/
def Obligations.EachLineErrorIsGivenExactlyWhereItsCheckFailsFirst : Prop :=
  let operandMnemonics : List (List Char) :=
    [['J', 'M', 'P'], ['J', 'R', 'P'], ['L', 'D', 'N'], ['S', 'T', 'O'], ['S', 'U', 'B'], ['N', 'U', 'M']]
  let bareMnemonics : List (List Char) := [['C', 'M', 'P'], ['S', 'T', 'P']]
  let addressed (line : Line) : Prop := (∀ c ∈ line, c ≠ ':') ∧ ∃ addr, addressToken? (tokens line).1 = some addr
  ∀ line : Line,
    (parseLine line = .err .badEntry ↔ line = []) ∧
    (parseLine line = .err .badAddress ↔
      (∃ pre post, line = pre ++ ':' :: post ∧ (∀ c ∈ pre, c ≠ ':') ∧ addressToken? pre = none) ∨
      (line ≠ [] ∧ (∀ c ∈ line, c ≠ ':') ∧ addressToken? (tokens line).1 = none)) ∧
    (parseLine line = .err .badMemory ↔
      ∃ pre post, line = pre ++ ':' :: post ∧ (∀ c ∈ pre, c ≠ ':') ∧ (∃ addr, addressToken? pre = some addr) ∧
        (post.length ≠ 32 ∨ ∃ c ∈ post, c ≠ '0' ∧ c ≠ '1')) ∧
    (parseLine line = .err .badInstruction ↔ addressed line ∧
      ∃ m operands, (tokens line).2 = m :: operands ∧ m ∉ operandMnemonics ∧ m ∉ bareMnemonics) ∧
    (parseLine line = .err .missingOperand ↔ addressed line ∧
      ((tokens line).2 = [] ∨ ∃ m ∈ operandMnemonics, (tokens line).2 = [m])) ∧
    (parseLine line = .err .extraOperand ↔ addressed line ∧
      ∃ m operands, (tokens line).2 = m :: operands ∧
        ((m ∈ bareMnemonics ∧ 1 ≤ operands.length) ∨ (m ∈ operandMnemonics ∧ 2 ≤ operands.length))) ∧
    (parseLine line = .err .badOperand ↔ addressed line ∧
      ∃ m ∈ operandMnemonics, ∃ operand, (tokens line).2 = [m, operand] ∧ addressToken? operand = none)
end

