-- ==== Sys2Proof/Laws/Decode.lean ====
section
/-! SUPPORT. The fields of an encoded word, and of a decoded one. -/

namespace Sys2Proof

/-- The opcode map, read backwards: the field of an instruction is its canonical code, or 5 for `Subtract`. -/
theorem opOf_code (f : BitVec 3) (a : Addr) :
    codeOf (opOf f a) = (if f = 5 then 4 else f.toNat) ∧ (opOf f a).operand = a := by
  have h : ∀ f : BitVec 3, f = 0 ∨ f = 1 ∨ f = 2 ∨ f = 3 ∨ f = 4 ∨ f = 5 ∨ f = 6 ∨ f = 7 := by decide
  rcases h f with h | h | h | h | h | h | h | h <;> subst h <;> exact ⟨rfl, rfl⟩

/-- An instruction is what the opcode map makes of its own code and operand. -/
theorem opOf_codeOf (i : Instr) : opOf (BitVec.ofNat 3 (codeOf i)) i.operand = i := by
  cases i <;> rfl

theorem codeOf_lt (i : Instr) : codeOf i < 8 := by cases i <;> simp [codeOf]

theorem codeOf_ne_five (i : Instr) : codeOf i ≠ 5 := by cases i <;> simp [codeOf]

theorem encode_toNat (i : Instr) : (encode i).toNat = codeOf i * 8192 + i.operand.toNat := by
  have h1 := codeOf_lt i
  have h2 := i.operand.isLt
  rw [encode, BitVec.toNat_ofNat]
  omega

theorem opcodeField_toNat (w : Word) : (opcodeField w).toNat = w.toNat / 8192 % 8 := by
  simp [opcodeField, BitVec.extractLsb'_toNat, Nat.shiftRight_eq_div_pow]

theorem operandField_toNat (w : Word) : (operandField w).toNat = w.toNat % 32 := by
  simp [operandField, BitVec.extractLsb'_toNat]

/-- The opcode field of an encoded instruction is its code. -/
theorem opcodeField_encode (i : Instr) : (opcodeField (encode i)).toNat = codeOf i := by
  have h1 := codeOf_lt i
  have h2 := i.operand.isLt
  rw [opcodeField_toNat, encode_toNat]
  omega

/-- The operand field of an encoded instruction is its operand. -/
theorem operandField_encode (i : Instr) : operandField (encode i) = i.operand := by
  have h2 := i.operand.isLt
  apply BitVec.eq_of_toNat_eq
  rw [operandField_toNat, encode_toNat]
  omega

end Sys2Proof
end

