-- ==== Sys2Proof/Laws/State.lean ====
section
/-! SUPPORT. One lemma per field per update of the state, so that no proof unfolds a record update. -/

namespace Sys2Proof.Machine

@[simp] theorem setPc_pc (v : Int) (s : State) : (setPc v s).pc = v := rfl
@[simp] theorem setPc_acc (v : Int) (s : State) : (setPc v s).acc = s.acc := rfl
@[simp] theorem setPc_run (v : Int) (s : State) : (setPc v s).run = s.run := rfl
@[simp] theorem setPc_fault (v : Int) (s : State) : (setPc v s).fault = s.fault := rfl
@[simp] theorem setPc_mem (v : Int) (s : State) : (setPc v s).mem = s.mem := rfl

@[simp] theorem setAcc_pc (v : Word) (s : State) : (setAcc v s).pc = s.pc := rfl
@[simp] theorem setAcc_acc (v : Word) (s : State) : (setAcc v s).acc = v := rfl
@[simp] theorem setAcc_run (v : Word) (s : State) : (setAcc v s).run = s.run := rfl
@[simp] theorem setAcc_fault (v : Word) (s : State) : (setAcc v s).fault = s.fault := rfl
@[simp] theorem setAcc_mem (v : Word) (s : State) : (setAcc v s).mem = s.mem := rfl

@[simp] theorem setRun_pc (b : Bool) (s : State) : (setRun b s).pc = s.pc := rfl
@[simp] theorem setRun_acc (b : Bool) (s : State) : (setRun b s).acc = s.acc := rfl
@[simp] theorem setRun_run (b : Bool) (s : State) : (setRun b s).run = b := rfl
@[simp] theorem setRun_fault (b : Bool) (s : State) : (setRun b s).fault = s.fault := rfl
@[simp] theorem setRun_mem (b : Bool) (s : State) : (setRun b s).mem = s.mem := rfl

@[simp] theorem setFault_pc (f : FaultLatch) (s : State) : (setFault f s).pc = s.pc := rfl
@[simp] theorem setFault_acc (f : FaultLatch) (s : State) : (setFault f s).acc = s.acc := rfl
@[simp] theorem setFault_run (f : FaultLatch) (s : State) : (setFault f s).run = s.run := rfl
@[simp] theorem setFault_fault (f : FaultLatch) (s : State) : (setFault f s).fault = f := rfl
@[simp] theorem setFault_mem (f : FaultLatch) (s : State) : (setFault f s).mem = s.mem := rfl

@[simp] theorem memWrite_pc (a : Addr) (v : Word) (s : State) : (memWrite a v s).pc = s.pc := rfl
@[simp] theorem memWrite_acc (a : Addr) (v : Word) (s : State) : (memWrite a v s).acc = s.acc := rfl
@[simp] theorem memWrite_run (a : Addr) (v : Word) (s : State) : (memWrite a v s).run = s.run := rfl
@[simp] theorem memWrite_fault (a : Addr) (v : Word) (s : State) : (memWrite a v s).fault = s.fault := rfl
@[simp] theorem memWrite_mem (a : Addr) (v : Word) (s : State) :
    (memWrite a v s).mem = Memory.set s.mem a.toNat v := rfl

@[simp] theorem raiseRunaway_pc (s : State) : (raiseRunaway s).pc = s.pc := rfl
@[simp] theorem raiseRunaway_acc (s : State) : (raiseRunaway s).acc = s.acc := rfl
@[simp] theorem raiseRunaway_run (s : State) : (raiseRunaway s).run = false := rfl
@[simp] theorem raiseRunaway_fault (s : State) : (raiseRunaway s).fault = .runawayProgramCounter := rfl
@[simp] theorem raiseRunaway_mem (s : State) : (raiseRunaway s).mem = s.mem := rfl

@[simp] theorem preIncrement_pc (s : State) : (preIncrement s).pc = s.pc + 1 := rfl
@[simp] theorem preIncrement_acc (s : State) : (preIncrement s).acc = s.acc := rfl
@[simp] theorem preIncrement_run (s : State) : (preIncrement s).run = s.run := rfl
@[simp] theorem preIncrement_fault (s : State) : (preIncrement s).fault = s.fault := rfl
@[simp] theorem preIncrement_mem (s : State) : (preIncrement s).mem = s.mem := rfl

@[simp] theorem replaceMemory_pc (m : Image) (s : State) : (replaceMemory m s).pc = s.pc := rfl
@[simp] theorem replaceMemory_acc (m : Image) (s : State) : (replaceMemory m s).acc = s.acc := rfl
@[simp] theorem replaceMemory_run (m : Image) (s : State) : (replaceMemory m s).run = s.run := rfl
@[simp] theorem replaceMemory_fault (m : Image) (s : State) : (replaceMemory m s).fault = s.fault := rfl
@[simp] theorem replaceMemory_mem (m : Image) (s : State) :
    (replaceMemory m s).mem = Memory.ofImage m := rfl

/-- Two states with the same five fields are the same state (10_state.md rule R17). -/
theorem State.eq_of_fields {s t : State} (pc : s.pc = t.pc) (acc : s.acc = t.acc) (run : s.run = t.run)
    (fault : s.fault = t.fault) (mem : s.mem = t.mem) : s = t := by
  cases s; cases t; simp_all

end Sys2Proof.Machine
end

