-- ==== Sys2Proof/Laws/Memory.lean ====
section
/-! SUPPORT. The laws of memory: what a read gives after a write, and that every operation keeps the canonical
form. -/

namespace Sys2Proof.Machine

@[simp] theorem Memory.get_nil (a : Nat) : Memory.get [] a = unlistedWord := rfl

theorem Memory.get_cons (k : Nat) (w : Word) (m : Memory) (a : Nat) :
    Memory.get ((k, w) :: m) a = if k = a then w else Memory.get m a := rfl

theorem Memory.erase_cons (k : Nat) (w : Word) (m : Memory) (a : Nat) :
    Memory.erase ((k, w) :: m) a = if k = a then Memory.erase m a else (k, w) :: Memory.erase m a := by
  by_cases h : k = a <;> simp [Memory.erase, h]

theorem Memory.get_erase (m : Memory) (a b : Nat) :
    Memory.get (Memory.erase m a) b = if b = a then unlistedWord else Memory.get m b := by
  induction m with
  | nil => simp [Memory.erase]
  | cons c m ih =>
    obtain ⟨k, w⟩ := c
    rw [Memory.erase_cons]
    by_cases hk : k = a
    · rw [if_pos hk, ih, Memory.get_cons]
      by_cases hb : b = a
      · simp [hb]
      · rw [if_neg hb, if_neg hb, if_neg (by omega)]
    · rw [if_neg hk, Memory.get_cons, Memory.get_cons, ih]
      by_cases hb : b = a
      · rw [if_pos hb, if_pos hb, if_neg (by omega)]
      · rw [if_neg hb, if_neg hb]

theorem Memory.get_insert (m : Memory) (a : Nat) (v : Word) (b : Nat)
    (none : ∀ c ∈ m, c.1 ≠ a) :
    Memory.get (Memory.insert a v m) b = if b = a then v else Memory.get m b := by
  induction m with
  | nil => simp [Memory.insert, Memory.get_cons, eq_comm]
  | cons c m ih =>
    obtain ⟨k, w⟩ := c
    have hk : k ≠ a := none (k, w) (by simp)
    rw [Memory.insert]
    split
    · rw [Memory.get_cons]; simp only [eq_comm]
    · rw [Memory.get_cons, ih fun c hc => none c (by simp [hc]), Memory.get_cons]
      by_cases hb : b = a
      · rw [if_pos hb, if_pos hb, if_neg (by omega)]
      · rw [if_neg hb, if_neg hb]

theorem Memory.erase_absent (m : Memory) (a : Nat) : ∀ c ∈ Memory.erase m a, c.1 ≠ a := by
  intro c hc
  simpa using (List.mem_filter.mp hc).2

/-- A read after a write: the value written at its address, and elsewhere what was there. -/
theorem Memory.get_set (m : Memory) (a : Nat) (v : Word) (b : Nat) :
    Memory.get (Memory.set m a v) b = if b = a then v else Memory.get m b := by
  rw [Memory.set]
  split
  · rename_i hv; rw [Memory.get_erase, hv]
  · rw [Memory.get_insert _ _ _ _ (Memory.erase_absent m a), Memory.get_erase]
    split <;> rfl

/-- One entry of a canonical memory and what follows it. -/
theorem Memory.wfFrom_cons {lo k : Nat} {w : Word} {m : Memory} :
    Memory.wfFrom lo ((k, w) :: m) = true ↔
      lo ≤ k ∧ k < 32 ∧ w ≠ unlistedWord ∧ Memory.wfFrom (k + 1) m = true := by
  simp only [Memory.wfFrom, Bool.and_eq_true, Bool.not_eq_true', beq_eq_false_iff_ne, decide_eq_true_eq, and_assoc]

theorem Memory.wfFrom_mono {lo lo' : Nat} {m : Memory} (h : lo' ≤ lo) (hm : Memory.wfFrom lo m = true) :
    Memory.wfFrom lo' m = true := by
  cases m with
  | nil => rfl
  | cons c m =>
    obtain ⟨k, w⟩ := c
    obtain ⟨h1, h2, h3, h4⟩ := Memory.wfFrom_cons.mp hm
    exact Memory.wfFrom_cons.mpr ⟨by omega, h2, h3, h4⟩

theorem Memory.wfFrom_erase {lo : Nat} {m : Memory} (a : Nat) (hm : Memory.wfFrom lo m = true) :
    Memory.wfFrom lo (Memory.erase m a) = true := by
  induction m generalizing lo with
  | nil => rfl
  | cons c m ih =>
    obtain ⟨k, w⟩ := c
    obtain ⟨h1, h2, h3, h4⟩ := Memory.wfFrom_cons.mp hm
    rw [Memory.erase_cons]
    split
    · exact Memory.wfFrom_mono (by omega) (ih h4)
    · exact Memory.wfFrom_cons.mpr ⟨h1, h2, h3, ih h4⟩

theorem Memory.wfFrom_insert {lo : Nat} {m : Memory} {a : Nat} {v : Word} (hlo : lo ≤ a) (ha : a < 32)
    (hv : v ≠ unlistedWord) (none : ∀ c ∈ m, c.1 ≠ a) (hm : Memory.wfFrom lo m = true) :
    Memory.wfFrom lo (Memory.insert a v m) = true := by
  induction m generalizing lo with
  | nil => exact Memory.wfFrom_cons.mpr ⟨hlo, ha, hv, rfl⟩
  | cons c m ih =>
    obtain ⟨k, w⟩ := c
    obtain ⟨h1, h2, h3, h4⟩ := Memory.wfFrom_cons.mp hm
    have hk : k ≠ a := none (k, w) (by simp)
    rw [Memory.insert]
    split
    · exact Memory.wfFrom_cons.mpr ⟨hlo, ha, hv, Memory.wfFrom_cons.mpr ⟨by omega, h2, h3, h4⟩⟩
    · exact Memory.wfFrom_cons.mpr
        ⟨h1, h2, h3, ih (by omega) (fun c hc => none c (by simp [hc])) h4⟩

/-- A write keeps the canonical form. -/
theorem Memory.wf_set {m : Memory} {a : Nat} (v : Word) (ha : a < 32) (hm : Memory.wf m = true) :
    Memory.wf (Memory.set m a v) = true := by
  rw [Memory.set]
  split
  · exact Memory.wfFrom_erase a hm
  · rename_i hv
    exact Memory.wfFrom_insert (Nat.zero_le a) ha hv (Memory.erase_absent m a) (Memory.wfFrom_erase a hm)

theorem Memory.wfFrom_ofWords (n : Nat) (ws : List Word) (h : n + ws.length ≤ 32) :
    Memory.wfFrom n (Memory.ofWords n ws) = true := by
  induction ws generalizing n with
  | nil => rfl
  | cons w ws ih =>
    have h' : n + 1 + ws.length ≤ 32 := by simp at h; omega
    rw [Memory.ofWords]
    split
    · exact Memory.wfFrom_mono (by omega) (ih (n + 1) h')
    · rename_i hw
      exact Memory.wfFrom_cons.mpr ⟨le_rfl, by simp at h; omega, hw, ih (n + 1) h'⟩

/-- The memory that an image becomes is in canonical form. -/
theorem Memory.wf_ofImage (image : Image) : Memory.wf (Memory.ofImage image) = true :=
  Memory.wfFrom_ofWords 0 image.toList (by simp)

/-- The reset memory is in canonical form. -/
theorem Memory.wf_reset : Memory.wf State.reset.mem = true := rfl

theorem Memory.get_ofWords (n : Nat) (ws : List Word) (a : Nat) :
    Memory.get (Memory.ofWords n ws) a = if n ≤ a then ws.getD (a - n) unlistedWord else unlistedWord := by
  induction ws generalizing n with
  | nil => simp [Memory.ofWords]
  | cons w ws ih =>
    have step : ∀ h : n ≠ a, (if n + 1 ≤ a then ws.getD (a - (n + 1)) unlistedWord else unlistedWord) =
        if n ≤ a then (w :: ws).getD (a - n) unlistedWord else unlistedWord := by
      intro h
      by_cases hle : n ≤ a
      · rw [if_pos (by omega), if_pos hle, show a - n = (a - (n + 1)) + 1 by omega]; simp
      · rw [if_neg (by omega), if_neg hle]
    rw [Memory.ofWords]
    by_cases hn : n = a
    · subst hn
      split
      · rename_i hw; rw [ih, if_neg (by omega)]; simp [hw]
      · simp [Memory.get_cons]
    · split
      · rw [ih, step hn]
      · rw [Memory.get_cons, if_neg hn, ih, step hn]

/-- The memory that an image becomes reads as the image. -/
theorem Memory.get_ofImage (image : Image) (a : Addr) :
    Memory.get (Memory.ofImage image) a.toNat = Image.get image a := by
  rw [Memory.ofImage, Memory.get_ofWords, if_pos (Nat.zero_le _)]
  have h : a.toNat < image.toList.length := by simpa using a.isLt
  simp [Image.get, List.getD_eq_getElem?_getD, List.getElem?_eq_getElem h]

@[simp] theorem Image.get_zeroImage (a : Addr) : Image.get zeroImage a = 0 := by
  simp [Image.get, zeroImage]

/-- An image after one word is set. -/
theorem Image.get_set (image : Image) (a b : Addr) (w : Word) :
    Image.get (Image.set image a w) b = if b = a then w else Image.get image b := by
  simp only [Image.get, Image.set, Vector.getElem_set, BitVec.toNat_inj, eq_comm]

theorem memRead_memWrite (s : State) (a b : Addr) (v : Word) :
    memRead (memWrite a v s) b = if b = a then v else memRead s b := by
  simp only [memRead, memWrite_mem, Memory.get_set, BitVec.toNat_inj]

@[simp] theorem memRead_setPc (v : Int) (s : State) (a : Addr) : memRead (setPc v s) a = memRead s a := rfl
@[simp] theorem memRead_setAcc (v : Word) (s : State) (a : Addr) : memRead (setAcc v s) a = memRead s a := rfl
@[simp] theorem memRead_setRun (b : Bool) (s : State) (a : Addr) : memRead (setRun b s) a = memRead s a := rfl
@[simp] theorem memRead_setFault (f : FaultLatch) (s : State) (a : Addr) :
    memRead (setFault f s) a = memRead s a := rfl
@[simp] theorem memRead_preIncrement (s : State) (a : Addr) : memRead (preIncrement s) a = memRead s a := rfl
@[simp] theorem memRead_raiseRunaway (s : State) (a : Addr) : memRead (raiseRunaway s) a = memRead s a := rfl

end Sys2Proof.Machine
end

