-- ==== Sys2Proof/Laws/Exec.lean ====
section
/-! SUPPORT. What each instruction does, once, in the terms of the shared operations, and what `exec` can do at
all. -/

namespace Sys2Proof.Machine

@[simp] theorem exec_jmp (a : Addr) (s : State) : exec (.jmp a) s = .next (setPc (operandInt s a) s) := rfl
@[simp] theorem exec_jrp (a : Addr) (s : State) :
    exec (.jrp a) s = .next (setPc (s.pc + operandInt s a) s) := rfl
@[simp] theorem exec_ldn (a : Addr) (s : State) :
    exec (.ldn a) s = .next (setAcc (negateWrap (operandWord s a)) s) := rfl
@[simp] theorem exec_sto (a : Addr) (s : State) :
    exec (.sto a) s = .next (memWrite (effectiveAddress a) s.acc s) := rfl
@[simp] theorem exec_sub (a : Addr) (s : State) :
    exec (.sub a) s = .next (setAcc (subtractWrap s.acc (operandWord s a)) s) := rfl
@[simp] theorem exec_cmp (a : Addr) (s : State) :
    exec (.cmp a) s = .next (if accNegative s then setPc (s.pc + 1) s else s) := rfl
@[simp] theorem exec_stp (a : Addr) (s : State) : exec (.stp a) s = .next (setRun false s) := rfl

/-- Everything an executed instruction can do: one of the seven operations, by its constructor. -/
theorem exec_cases {i : Instr} {s t : State} (h : exec i s = .next t) :
    (∃ a, i = .jmp a ∧ t = setPc (operandInt s a) s) ∨
    (∃ a, i = .jrp a ∧ t = setPc (s.pc + operandInt s a) s) ∨
    (∃ a, i = .ldn a ∧ t = setAcc (negateWrap (operandWord s a)) s) ∨
    (∃ a, i = .sto a ∧ t = memWrite (effectiveAddress a) s.acc s) ∨
    (∃ a, i = .sub a ∧ t = setAcc (subtractWrap s.acc (operandWord s a)) s) ∨
    (∃ a, i = .cmp a ∧ accNegative s = true ∧ t = setPc (s.pc + 1) s) ∨
    (∃ a, i = .cmp a ∧ accNegative s = false ∧ t = s) ∨
    (∃ a, i = .stp a ∧ t = setRun false s) := by
  cases i <;> simp only [exec_jmp, exec_jrp, exec_ldn, exec_sto, exec_sub, exec_cmp, exec_stp,
    Host.Outcome.next.injEq] at h <;> subst h
  case cmp a => cases hneg : accNegative s <;> simp
  all_goals simp

/-- The address of a data access is never out of range and the operation is the only effect, so executing never
stops. -/
theorem exec_answers (i : Instr) (s : State) : ∃ t, exec i s = .next t := by
  cases i <;> exact ⟨_, rfl⟩

/-- The word that an operand names is the word of memory at the operand field. -/
theorem operandWord_eq (s : State) (a : Addr) : operandWord s a = memRead s a := rfl

theorem operandInt_eq (s : State) (a : Addr) : operandInt s a = (memRead s a).toInt := rfl

theorem effectiveAddress_eq (a : Addr) : effectiveAddress a = a := rfl

theorem accNegative_iff (s : State) : accNegative s = true ↔ s.acc.toInt < 0 := by
  simp [accNegative]

end Sys2Proof.Machine
end

