-- ==== Sys2Proof/Laws/Loader.lean ====
section
/-! SUPPORT. How a line is cut, and which tokens are addresses. -/

namespace Sys2Proof.Machine

/-- Every character of a number token is a digit. -/
theorem digits_of_digitsValue? {acc n : Nat} {t : List Char} (h : digitsValue? acc t = some n) :
    ∀ c ∈ t, 48 ≤ c.toNat ∧ c.toNat ≤ 57 := by
  induction t generalizing acc with
  | nil => simp
  | cons c t ih =>
    simp only [digitsValue?, digitValue?] at h
    by_cases hc : 48 ≤ c.toNat ∧ c.toNat ≤ 57
    · rw [if_pos hc] at h
      intro d hd
      rcases List.mem_cons.mp hd with rfl | hd
      · exact hc
      · exact ih h d hd
    · rw [if_neg hc] at h
      cases h

/-- An address token holds digits only, so no separator of either grammar. -/
theorem digits_of_addressToken? {t : List Char} {a : Addr} (h : addressToken? t = some a) :
    ∀ c ∈ t, 48 ≤ c.toNat ∧ c.toNat ≤ 57 := by
  cases t with
  | nil => simp
  | cons c t =>
    obtain ⟨n, hn, -⟩ := Option.bind_eq_some_iff.mp h
    exact digits_of_digitsValue? hn

theorem no_space_of_addressToken? {t : List Char} {a : Addr} (h : addressToken? t = some a) :
    ∀ c ∈ t, c ≠ ' ' := by
  rintro c hc rfl
  exact absurd (digits_of_addressToken? h _ hc).1 (by decide)

theorem no_colon_of_addressToken? {t : List Char} {a : Addr} (h : addressToken? t = some a) :
    ∀ c ∈ t, c ≠ ':' := by
  rintro c hc rfl
  exact absurd (digits_of_addressToken? h _ hc).2 (by decide)

theorem addressToken?_nil : addressToken? [] = none := rfl

/-- A line is cut at its first colon. -/
theorem cutAtColon?_append {pre : Line} (h : ∀ c ∈ pre, c ≠ ':') (post : Line) :
    cutAtColon? (pre ++ ':' :: post) = some (pre, post) := by
  induction pre with
  | nil => simp [cutAtColon?]
  | cons c pre ih =>
    have hc : c ≠ ':' := h c (by simp)
    simp [cutAtColon?, hc, ih fun d hd => h d (by simp [hd])]

/-- A line without colon is not cut. -/
theorem cutAtColon?_eq_none {l : Line} (h : ∀ c ∈ l, c ≠ ':') : cutAtColon? l = none := by
  induction l with
  | nil => rfl
  | cons c l ih =>
    have hc : c ≠ ':' := h c (by simp)
    simp [cutAtColon?, hc, ih fun d hd => h d (by simp [hd])]

/-- The first token of a line ends at its first space. -/
theorem tokens_append {pre : Line} (h : ∀ c ∈ pre, c ≠ ' ') (post : Line) :
    tokens (pre ++ ' ' :: post) = (pre, (tokens post).1 :: (tokens post).2) := by
  induction pre with
  | nil => simp [tokens]
  | cons c pre ih =>
    have hc : c ≠ ' ' := h c (by simp)
    simp [tokens, hc, ih fun d hd => h d (by simp [hd])]

/-- A line without space is one token. -/
theorem tokens_of_no_space {l : Line} (h : ∀ c ∈ l, c ≠ ' ') : tokens l = (l, []) := by
  induction l with
  | nil => rfl
  | cons c l ih =>
    have hc : c ≠ ' ' := h c (by simp)
    simp [tokens, hc, ih fun d hd => h d (by simp [hd])]

/-- The two results that the assembly grammar can give an accepted line: the word of a bare mnemonic, or that of an
operand-taking one. -/
theorem parseInstr_ok {addr a : Addr} {w : Word} {rest : List (List Char)} (h : parseInstr addr rest = .ok a w) :
    a = addr ∧ ((∃ m i, rest = [m] ∧ bareInstr? m = some i ∧ w = encode i) ∨
      ∃ m t mk n, rest = [m, t] ∧ bareInstr? m = none ∧ operandInstr? m = some mk ∧
        addressToken? t = some n ∧ w = encode (mk n)) := by
  unfold parseInstr at h
  split at h
  · cases h
  · rename_i m operands
    split at h
    · rename_i i hi
      split at h
      · rename_i he
        cases h
        rw [List.isEmpty_iff] at he
        exact ⟨rfl, .inl ⟨m, i, by rw [he], hi, rfl⟩⟩
      · cases h
    · rename_i hi
      split at h
      · cases h
      · rename_i mk hmk
        unfold parseOperands at h
        split at h
        · cases h
        · rename_i t
          split at h
          · cases h
          · rename_i n hn
            cases h
            exact ⟨rfl, .inr ⟨m, t, mk, n, rfl, hi, hmk, hn, rfl⟩⟩
        · cases h

/-- The mnemonics without operand. -/
theorem bareInstr?_isSome (m : List Char) :
    (bareInstr? m).isSome ↔ m ∈ [['C', 'M', 'P'], ['S', 'T', 'P']] := by
  simp only [bareInstr?, List.mem_cons, List.not_mem_nil, or_false]
  split
  · simp [*]
  · split <;> simp [*]

/-- The mnemonics with one operand. -/
theorem operandInstr?_isSome (m : List Char) :
    (operandInstr? m).isSome ↔
      m ∈ [['J', 'M', 'P'], ['J', 'R', 'P'], ['L', 'D', 'N'], ['S', 'T', 'O'], ['S', 'U', 'B'], ['N', 'U', 'M']] := by
  simp only [operandInstr?, List.mem_cons, List.not_mem_nil, or_false]
  repeat' split
  all_goals simp [*]

end Sys2Proof.Machine
end

