-- ==== Sys2Proof/Laws/PerInstr.lean ====
section
/-! SUPPORT. Statements about every instruction as syntax, one lemma per constructor. -/

namespace Sys2Proof.Laws

/-- The encoded word of an instruction carries its canonical code and its operand, and no unused bit. -/
def EncodedFields.Statement (i : Instr) : Prop :=
  (opcodeField (encode i)).toNat = codeOf i ∧ operandField (encode i) = i.operand ∧ (encode i).toNat < 65536

theorem EncodedFields.of_encode (i : Instr) : EncodedFields.Statement i := by
  have h1 := codeOf_lt i
  have h2 := i.operand.isLt
  exact ⟨opcodeField_encode i, operandField_encode i, by rw [encode_toNat]; omega⟩

theorem EncodedFields.jmp (a : Addr) : EncodedFields.Statement (.jmp a) := EncodedFields.of_encode _
theorem EncodedFields.jrp (a : Addr) : EncodedFields.Statement (.jrp a) := EncodedFields.of_encode _
theorem EncodedFields.ldn (a : Addr) : EncodedFields.Statement (.ldn a) := EncodedFields.of_encode _
theorem EncodedFields.sto (a : Addr) : EncodedFields.Statement (.sto a) := EncodedFields.of_encode _
theorem EncodedFields.sub (a : Addr) : EncodedFields.Statement (.sub a) := EncodedFields.of_encode _
theorem EncodedFields.cmp (a : Addr) : EncodedFields.Statement (.cmp a) := EncodedFields.of_encode _
theorem EncodedFields.stp (a : Addr) : EncodedFields.Statement (.stp a) := EncodedFields.of_encode _

end Sys2Proof.Laws
end

