-- ==== Sys2Proof/Laws/Step.lean ====
section
/-! SUPPORT. What one step can do, once: every invariant proof starts from `step_cases`. -/

namespace Sys2Proof.Machine

theorem fetchInBounds_iff (s : State) : fetchInBounds s = true ↔ 0 ≤ s.pc ∧ s.pc ≤ 31 := by
  have h : s.pc < (Config.words : Nat) ↔ s.pc ≤ 31 := by show s.pc < 32 ↔ s.pc ≤ 31; omega
  simp only [fetchInBounds, addrInRange, Bool.and_eq_true, decide_eq_true_eq, h]

/-- A Halted engine does not change. -/
theorem step_of_halted {s : State} (h : s.run = false) : step s = .next s := by
  simp [step, cycle, h]

/-- A Running engine whose fetch address is out of bounds faults. -/
theorem step_of_out_of_bounds {s : State} (h : s.run = true) (hb : fetchInBounds (preIncrement s) = false) :
    step s = .next (raiseRunaway (preIncrement s)) := by
  simp [step, cycle, h, hb]

/-- A Running engine whose fetch address is in bounds executes the instruction there. -/
theorem step_of_in_bounds {s : State} (h : s.run = true) (hb : fetchInBounds (preIncrement s) = true) :
    step s = exec (decode (fetchWord (preIncrement s))) (preIncrement s) := by
  simp [step, cycle, h, hb]

/-- Everything a step can do: nothing, the fault, or one instruction. -/
theorem step_cases {s t : State} (h : step s = .next t) :
    (s.run = false ∧ t = s) ∨
    (s.run = true ∧ ¬ (0 ≤ s.pc + 1 ∧ s.pc + 1 ≤ 31) ∧ t = raiseRunaway (preIncrement s)) ∨
    (s.run = true ∧ 0 ≤ s.pc + 1 ∧ s.pc + 1 ≤ 31 ∧
      exec (decode (fetchWord (preIncrement s))) (preIncrement s) = .next t) := by
  cases hr : s.run
  · rw [step_of_halted hr] at h; cases h; exact .inl ⟨rfl, rfl⟩
  · cases hb : fetchInBounds (preIncrement s)
    · rw [step_of_out_of_bounds hr hb] at h; cases h
      refine .inr (.inl ⟨rfl, fun hp => ?_, rfl⟩)
      rw [(fetchInBounds_iff _).mpr hp] at hb; cases hb
    · rw [step_of_in_bounds hr hb] at h
      obtain ⟨h0, h1⟩ := (fetchInBounds_iff _).mp hb
      exact .inr (.inr ⟨rfl, h0, h1, h⟩)

/-- The address that an in-bounds `PC` names is `PC`. -/
theorem fetchAddr_toNat {s : State} (h0 : 0 ≤ s.pc) (h1 : s.pc ≤ 31) : ((fetchAddr s).toNat : Int) = s.pc := by
  simp only [fetchAddr, BitVec.toNat_ofInt]
  omega

end Sys2Proof.Machine
end

