-- ==== Sys2Proof/Tests/Slice0.lean ====
section
/-! SUPPORT. Tests on fixed values, each from a vector V<n> or program P<n> of 95_test_vectors.md or a worked example of
the rule named, and for every obligation with hypotheses a witness that meets them. -/

namespace Sys2Proof.Tests

open Sys2Proof Sys2Proof.Machine

/-- The state of a single-step vector: Running, no fault, the words that matter. -/
def before (pc acc : Int) (mem : Memory) : State :=
  { pc := pc, acc := wrap32 acc, run := true, fault := .none, mem := mem }

/-- The next state of an outcome, for comparison by `decide`. -/
def stateOf : Host.Outcome State Fault Refusal → Option State
  | .next s => some s
  | .fault _ => none
  | .refused _ => none

/-- The state after one step. -/
def after (pc acc : Int) (mem : Memory) : Option State := stateOf (step (before pc acc mem))

/-! ### Ill-formed data is refused -/

theorem test_address_range : addrInRange 0 = true ∧ addrInRange 31 = true ∧ addrInRange 32 = false ∧
    addrInRange (-1) = false := by decide
theorem test_address_of_number : addrOfNat? 31 = some 31 ∧ addrOfNat? 32 = none := by decide
theorem test_source_form : (Instr.cmp 0).sourceForm = true ∧ (Instr.cmp 7).sourceForm = false ∧
    (Instr.stp 31).sourceForm = false := by decide
theorem test_canonical_word : canonicalWord 57375 = true ∧ canonicalWord 32 = false ∧ canonicalWord 4096 = false ∧
    canonicalWord 40960 = false ∧ canonicalWord 65536 = false := by decide
theorem test_memory_form : Memory.wf [(0, 1), (31, 2)] = true ∧ Memory.wf [(3, 1), (1, 2)] = false ∧
    Memory.wf [(3, 1), (3, 2)] = false ∧ Memory.wf [(32, 1)] = false ∧ Memory.wf [(3, 0)] = false := by decide

/-! ### Decoding, by words written out bit by bit (bits 15 to 13 the opcode, 4 to 0 the operand) -/

theorem test_decode_jmp : decode 0b00000000000000000000000000010110#32 = .jmp 22 := by decide
theorem test_decode_jrp : decode 0b00000000000000000010000000001011#32 = .jrp 11 := by decide
theorem test_decode_ldn : decode 0b00000000000000000100000000010100#32 = .ldn 20 := by decide
theorem test_decode_sto : decode 0b00000000000000000110000000010110#32 = .sto 22 := by decide
theorem test_decode_sub : decode 0b00000000000000001000000000010101#32 = .sub 21 := by decide
theorem test_decode_sub_alias : decode 0b00000000000000001010000000001001#32 = .sub 9 := by decide
theorem test_decode_cmp : decode 0b00000000000000001100000000000000#32 = .cmp 0 := by decide
theorem test_decode_stp : decode 0b00000000000000001110000000000000#32 = .stp 0 := by decide
/-- V10b to V10e: bits 5, 12 and 16 belong to neither field. -/
theorem test_decode_unused_bits : decode 32 = .jmp 0 ∧ decode 4096 = .jmp 0 ∧ decode 65536 = .jmp 0 := by decide
/-- V11b, V18a: negative words. -/
theorem test_decode_negative : decode (wrap32 (-57344)) = .jrp 0 ∧ decode (wrap32 (-57376)) = .jmp 0 := by decide
/-- V12b: re-encoding drops the unused bit 24. -/
theorem test_reencode : encode (decode 16793627) = 16411 := by decide
theorem test_decode_table_word : decodeTableWord 32 40969 = some (.sub 9) := by decide
/-- Examples of R57. -/
theorem test_render : renderChars (decode 16404) = ['L', 'D', 'N', ' ', '2', '0'] ∧
    renderChars (decode 40969) = ['S', 'U', 'B', ' ', '9'] ∧
    renderChars (decode 49157) = ['C', 'M', 'P'] := by decide

/-! ### Single steps -/

/-- V20d: the whole word goes to `PC`. -/
theorem test_jmp_large : (after 0 0 [(1, 5), (5, 2147483647)]).map (·.pc) = some 2147483647 := by decide
/-- V20a: -1 is a jump value like any other. -/
theorem test_jmp_negative : (after 0 0 [(1, 5), (5, 0xFFFFFFFF)]).map (·.pc) = some (-1) := by decide
/-- V22g: the sum is exact, above 2^31. -/
theorem test_jrp_exact : (after 30 0 [(11, 2147483647), (31, 8203)]).map (·.pc) = some 2147483678 := by decide
/-- V22. -/
theorem test_jrp_forward :
    (after 0 0 [(0, 16394), (1, 8203), (2, 57344), (11, 2)]).map (·.pc) = some 3 := by decide
/-- V30: the old accumulator is not used. -/
theorem test_ldn : (after 0 123 [(1, 16404), (20, 7)]).map (·.acc.toInt) = some (-7) := by decide
/-- V31: the one value whose negation wraps. -/
theorem test_ldn_wraps :
    (after 0 0 [(1, 16404), (20, 0x80000000)]).map (·.acc.toInt) = some (-2147483648) := by decide
/-- V34: negative overflow wraps. -/
theorem test_sub_wraps :
    (after 0 (-2147483648) [(1, 32789), (21, 1)]).map (·.acc.toInt) = some 2147483647 := by decide
/-- V37: the alias opcode, with a negative subtrahend. -/
theorem test_sub_alias : (after 0 3 [(1, 40981), (21, 0xFFFFFFFC)]).map (·.acc.toInt) = some 7 := by decide
/-- V38: the store, and the accumulator and `PC` after it. -/
theorem test_sto : after 0 (-12) [(1, 24598)] = some (before 1 (-12) [(1, 24598), (22, 0xFFFFFFF4)]) := by decide
/-- V38b: the instruction overwrites itself. -/
theorem test_sto_itself : after 0 57344 [(1, 24577)] = some (before 1 57344 [(1, 57344)]) := by decide
/-- V40, V44a: negative skips, whatever the operand field. -/
theorem test_cmp_skips : (after 0 (-1) [(1, 49152)]).map (·.pc) = some 2 ∧
    (after 0 (-1) [(1, 49183)]).map (·.pc) = some 2 := by decide
/-- V41: zero does not skip. -/
theorem test_cmp_zero : (after 0 0 [(1, 49152)]).map (·.pc) = some 1 := by decide
/-- V46. -/
theorem test_stp : after 0 9 [(1, 57344)] = some { before 1 9 [(1, 57344)] with run := false } := by decide
/-- V46a: the word -1 is a stop. -/
theorem test_stp_ones : (after 0 9 [(1, 0xFFFFFFFF)]).map (·.run) = some false := by decide

/-! ### Faults, starts and runs -/

/-- V54. -/
theorem test_runaway : after 31 5 [] =
    some { before 32 5 [] with run := false, fault := .runawayProgramCounter } := by decide
/-- V55: a negative address. -/
theorem test_runaway_below : (after (-2) 0 []).map (fun s => (s.pc, s.fault)) =
    some (-1, .runawayProgramCounter) := by decide
/-- V52a: a reset of a Faulted engine. -/
theorem test_reset_of_faulted :
    resetEngine { before 32 5 [(22, 12)] with run := false, fault := .runawayProgramCounter } =
      before 0 0 [(22, 12)] := by decide
/-- V53. -/
theorem test_reboot : reboot (Image.set zeroImage 1 57344) (before 17 (-3) [(22, 12)]) =
    before 0 0 [(1, 57344)] := by decide
/-- V50, V60: the first steps of the constructed engine on the image of zeros. -/
theorem test_zero_image : stateOf (stepN 2 (newEngine zeroImage)) = some (before 0 0 []) := by decide
/-- The first instruction after reset is the one placed at address 0. -/
theorem test_first_instruction : stateOf (step (State.reset.withFetchWord 32 57344)) =
    some { before 0 0 [(0, 57344)] with run := false } := by decide

/-! ### Display and loader -/

/-- V19n. -/
theorem test_raw : raw 16404 = 671219712 := by decide
/-- V143, V146. -/
theorem test_parse_leading_zeros : parseLine "000031 SUB 031".toList = .ok 31 32799 := by decide
/-- V3. -/
theorem test_parse_num : parseLine "0023 NUM 10".toList = .ok 23 10 := by decide
/-- V4. -/
theorem test_parse_binary :
    parseLine "0001:11011000000000100000000010000000".toList = .ok 1 16793627 := by decide
/-- V83, V87a, V90a, V93b. -/
theorem test_parse_errors : parseLine "abc JMP 0".toList = .err .badAddress ∧
    parseLine "0001 FOO 1 2".toList = .err .badInstruction ∧
    parseLine "0001 CMP ".toList = .err .extraOperand ∧
    parseLine "0001 JMP ".toList = .err .badOperand := by decide
/-- V94, V97a, V99. -/
theorem test_parse_more_errors : parseLine "0001 JMP 32".toList = .err .badOperand ∧
    parseLine "0001:101".toList = .err .badMemory ∧
    parseLine "0001 JMP 5:".toList = .err .badAddress := by decide
/-- V101: the blank line counts. -/
theorem test_load_error : loadProgram ["0001 LDN 5".toList, [], "0002 FOO 3".toList, "0040 STP".toList] =
    .err .badInstruction 3 := by decide
/-- V100b: the later definition wins. -/
theorem test_load : loadProgram ["0001 LDN 5".toList, [], "0005 NUM 3".toList, "0001 STP".toList] =
    .ok (Image.set (Image.set zeroImage 1 57344) 5 3) := by decide

/-! ### Witnesses of the obligations' hypotheses -/

/-- A step that fetches at the lowest address, and one at the highest. -/
theorem witness_fetches : (before (-1) 0 []).fetches ∧ (before 30 0 []).fetches := by
  constructor <;> exact ⟨rfl, by decide, by decide⟩
/-- A step that runs away just below and just above memory. -/
theorem witness_runsAway : (before (-2) 0 []).runsAway ∧ (before 31 0 []).runsAway := by
  constructor <;> exact ⟨rfl, by decide⟩
theorem witness_StepRunsTheInstructionAtTheIncrementedPc :
    (before (-1) 0 []).fetches ∧ (before 31 0 []).runsAway := ⟨witness_fetches.1, witness_runsAway.2⟩
/-- Each clause of the step in full, by a state and a fetched instruction of each kind. -/
theorem witness_StepInFull : (setRun false (before 0 0 [])).run = false ∧ (before 31 0 []).runsAway ∧
    (opcodeField 32768 = 4 ∧ opcodeField 40960 = 5) ∧
    ((before 30 0 [(31, 31)]).fetches ∧ (before 30 0 [(31, 31)]).nextInstr = .jmp 31) ∧
    ((before 30 0 [(31, 8223)]).fetches ∧ (before 30 0 [(31, 8223)]).nextInstr = .jrp 31) ∧
    ((before (-1) 0 [(0, 16384)]).fetches ∧ (before (-1) 0 [(0, 16384)]).nextInstr = .ldn 0) ∧
    ((before (-1) 0 [(0, 24576)]).fetches ∧ (before (-1) 0 [(0, 24576)]).nextInstr = .sto 0) ∧
    ((before (-1) 0 [(0, 40960)]).fetches ∧ (before (-1) 0 [(0, 40960)]).nextInstr = .sub 0) ∧
    ((before 30 (-1) [(31, 49152)]).fetches ∧ (before 30 (-1) [(31, 49152)]).nextInstr = .cmp 0) ∧
    ((before 30 0 [(31, 57344)]).fetches ∧ (before 30 0 [(31, 57344)]).nextInstr = .stp 0) := by
  have low : ∀ acc mem, (before (-1) acc mem).fetches := fun _ _ => ⟨rfl, Int.le_refl 0, by show (0 : Int) ≤ 31; decide⟩
  have high : ∀ acc mem, (before 30 acc mem).fetches := fun _ _ => ⟨rfl, by show (0 : Int) ≤ 31; decide, Int.le_refl 31⟩
  exact ⟨rfl, witness_runsAway.2, by decide, ⟨high _ _, by decide⟩, ⟨high _ _, by decide⟩, ⟨low _ _, by decide⟩,
    ⟨low _ _, by decide⟩, ⟨low _ _, by decide⟩, ⟨high _ _, by decide⟩, ⟨high _ _, by decide⟩⟩
theorem witness_OneFormatWithUnusedBitsIgnored :
    (0x0000E01F : Word) &&& 0x0000E01F = (0xFFFFFFFF : Word) &&& 0x0000E01F := by decide
theorem witness_AliasOpcodeIsSubtractInEveryRespect : opcodeField 40991 = 5 ∧
    (∀ c ∈ ['3', '1', ' ', 'S', 'U', 'B', ' ', '3', '1'], c ≠ ':') ∧
    parseLine ['3', '1', ' ', 'S', 'U', 'B', ' ', '3', '1'] = .ok 31 32799 := ⟨by decide, by simp, by decide⟩
theorem witness_PlacedWordIsWhatTheNextStepRuns : (before 30 0 []).fetches := witness_fetches.2
/-- A jump that reads its own word. -/
theorem witness_JumpGoesToTheAddressAfterTheWordNamed : (before 1 0 [(1, 1)]).run = true ∧
    memRead (before 1 0 [(1, 1)]) 1 = encode (.jmp 1) := by decide
theorem witness_RelativeJumpAddsTheWordNamedExactly : (before 1 0 [(1, 8193)]).run = true ∧
    memRead (before 1 0 [(1, 8193)]) 1 = encode (.jrp 1) ∧
    (before 1 0 [(1, 8193)]).pc = ((1 : Addr).toNat : Int) := by decide
theorem witness_CompareSkipsExactlyWhenTheAccumulatorIsNegative : (before 31 (-1) []).run = true ∧
    addressToken? "0003".toList = some 3 := by decide
/-- The most negative word, and an instruction that loads itself. -/
theorem witness_LoadNegativeNegatesTheWordNamed :
    (memRead (before 0 0 [(20, 0x80000000)]) 20).toInt = -2147483648 ∧
    (memRead (before 0 0 [(20, 0x80000001)]) 20).toInt ≠ -2147483648 ∧
    memRead (before 1 0 [(1, 16385)]) 1 = encode (.ldn 1) := by decide
/-- The exact difference at each border of the three ranges: the ranges meet and do not overlap. -/
theorem witness_SubtractWrapsSilently :
    (before 0 2147483647 [(21, 0xFFFFFFFF)]).acc.toInt - (memRead (before 0 0 [(21, 0xFFFFFFFF)]) 21).toInt =
      2147483648 ∧
    (before 0 (-2147483648) [(21, 1)]).acc.toInt - (memRead (before 0 0 [(21, 1)]) 21).toInt = -2147483649 ∧
    (before 0 (-2147483648) []).acc.toInt - (memRead (before 0 0 []) 21).toInt = -2147483648 ∧
    (before 0 2147483647 []).acc.toInt - (memRead (before 0 0 []) 21).toInt = 2147483647 ∧
    addressToken? "0001".toList = some 1 ∧ addressToken? "031".toList = some 31 := by decide
theorem witness_StoreWritesTheAccumulatorToTheWordNamed : (before 30 0 []).run = true ∧
    (before 30 0 []).pc + 1 = ((31 : Addr).toNat : Int) ∧ (30 : Addr) ≠ 31 := by decide
theorem witness_StopHaltsUntilResetOrReboot : addressToken? "31".toList = some 31 ∧
    (applyCommand .reset (setRun false (before 5 12 [])) = .next (before 0 0 []) ∧ (before 0 0 []).run = true) :=
  ⟨by decide, rfl, rfl⟩
theorem witness_ControlTransferFrame :
    exec (.jmp 5) (before 1 0 []) = .next (before 0 0 []) ∧
    exec (.jrp 5) (before 1 0 []) = .next (before 1 0 []) ∧
    exec (.cmp 5) (before 1 0 []) = .next (before 1 0 []) := ⟨rfl, rfl, rfl⟩
theorem witness_AccumulatorArithmeticFrame :
    exec (.ldn 5) (before 1 3 []) = .next (before 1 0 []) ∧
    exec (.sub 5) (before 1 3 []) = .next (before 1 3 []) := ⟨rfl, rfl⟩
theorem witness_StoreFrame : exec (.sto 31) (before 1 3 []) = .next (before 1 3 [(31, 3)]) ∧
    effectiveAddress 31 = 31 ∧ (0 : Addr) ≠ 31 := ⟨rfl, rfl, by decide⟩
theorem witness_StopFrame : exec (.stp 0) (before 1 3 []) = .next (setRun false (before 1 3 [])) := rfl
theorem witness_AccumulatorIsWrittenAndReadOnlyAsListed :
    (step (before 0 123 [(1, 16404), (20, 7)]) = .next (before 1 (-7) [(1, 16404), (20, 7)]) ∧
      (before 1 (-7) []).acc ≠ (before 0 123 []).acc) ∧
    ((∀ a, Instr.jmp 5 ≠ .sub a ∧ Instr.jmp 5 ≠ .sto a ∧ Instr.jmp 5 ≠ .cmp a) ∧
      exec (.jmp 5) (before 1 3 []) = .next (before 0 3 []) ∧ ∀ a, Instr.jmp 5 ≠ .ldn a) ∧
    ((∀ a, Instr.ldn 31 ≠ .sub a ∧ Instr.ldn 31 ≠ .sto a ∧ Instr.ldn 31 ≠ .cmp a) ∧
      exec (.ldn 31) (before 1 3 [(31, 7)]) = .next (before 1 (-7) [(31, 7)])) :=
  ⟨⟨rfl, by decide⟩, ⟨fun _ => ⟨nofun, nofun, nofun⟩, rfl, nofun⟩, fun _ => ⟨nofun, nofun, nofun⟩, rfl⟩
/-- A step that stops, one that faults, a Halted engine, and a reset of it. -/
theorem witness_RunningFlagChangesOnlyAsListed :
    step (before 0 9 [(1, 57344)]) = .next (setRun false (before 1 9 [(1, 57344)])) ∧
    step (before 31 9 []) = .next (raiseRunaway (before 32 9 [])) ∧
    (setRun false (before 1 9 [])).run = false ∧
    applyCommand .reset (setRun false (before 1 9 [])) = .next (before 0 0 []) ∧
    exec (.stp 0) (before 1 9 []) = .next (setRun false (before 1 9 [])) := ⟨rfl, rfl, rfl, rfl, rfl⟩
theorem witness_FaultLatchChangesOnlyAsListed :
    step (before 31 9 []) = .next (raiseRunaway (before 32 9 [])) ∧
    (raiseRunaway (before 32 9 [])).fault ≠ (before 31 9 []).fault ∧
    stepN 3 (raiseRunaway (before 32 9 [])) = .next (raiseRunaway (before 32 9 [])) := ⟨rfl, by decide, rfl⟩
theorem witness_RunawayFaultHaltsAndKeepsTheAddress : (before (-2) 0 []).runsAway := witness_runsAway.1
/-- An executing state at each end of memory, with a next state for each form of instruction, the jumps at the border
values of their targets. -/
theorem witness_RunawayIsTheOnlyExceptionAndHasTheseCauses :
    ((before 0 0 []).Executing ∧ (before 31 0 []).Executing) ∧
    (step (before 31 0 []) = .next (raiseRunaway (before 32 0 [])) ∧ (before 31 0 []).fault = .none) ∧
    exec (.jmp 5) (before 31 0 [(5, 30)]) = .next (before 30 0 [(5, 30)]) ∧
    exec (.jmp 5) (before 31 0 [(5, 31)]) = .next (before 31 0 [(5, 31)]) ∧
    exec (.jrp 5) (before 0 0 [(5, 0xFFFFFFFE)]) = .next (before (-2) 0 [(5, 0xFFFFFFFE)]) ∧
    exec (.cmp 0) (before 30 (-1) []) = .next (before 31 (-1) []) ∧
    exec (.ldn 0) (before 31 0 []) = .next (before 31 0 []) ∧
    exec (.sub 0) (before 31 0 []) = .next (before 31 0 []) ∧
    exec (.sto 0) (before 31 0 []) = .next (before 31 0 []) ∧
    exec (.stp 0) (before 31 0 []) = .next (setRun false (before 31 0 [])) :=
  ⟨⟨⟨rfl, rfl, by decide, by decide⟩, ⟨rfl, rfl, by decide, by decide⟩⟩, ⟨rfl, rfl⟩, rfl, rfl, rfl, rfl, rfl, rfl, rfl,
    rfl⟩
/-- Jumps with the words -1 and 31, and a relative jump. -/
theorem witness_JumpsAreIndirectAndOffByOne :
    ((before 0 0 [(1, 5), (5, 0xFFFFFFFF)]).fetches ∧ (before 0 0 [(1, 5), (5, 0xFFFFFFFF)]).nextInstr = .jmp 5 ∧
      step (before 0 0 [(1, 5), (5, 0xFFFFFFFF)]) = .next (before (-1) 0 [(1, 5), (5, 0xFFFFFFFF)]) ∧
      (memRead (before 0 0 [(1, 5), (5, 0xFFFFFFFF)]) 5).toInt = -1) ∧
    (step (before 0 0 [(1, 5), (5, 31)]) = .next (before 31 0 [(1, 5), (5, 31)]) ∧
      (memRead (before 0 0 [(1, 5), (5, 31)]) 5).toInt = 31) ∧
    ((before 0 0 [(1, 8203), (11, 2)]).nextInstr = .jrp 11 ∧
      step (before 0 0 [(1, 8203), (11, 2)]) = .next (before 3 0 [(1, 8203), (11, 2)])) :=
  ⟨⟨⟨rfl, by decide, by decide⟩, by decide, rfl, by decide⟩, ⟨rfl, by decide⟩, by decide, rfl⟩
/-- Program P3, step 3 and a store to the next address. -/
theorem witness_StoreToCodeTakesEffectAtOnce :
    (before 0 57344 [(1, 24578)]).fetches ∧ (before 0 57344 [(1, 24578)]).nextInstr = .sto 2 ∧
    step (before 0 57344 [(1, 24578)]) = .next (before 1 57344 [(1, 24578), (2, 57344)]) ∧
    nextFetch (before 1 57344 [(1, 24578), (2, 57344)]) = ((2 : Addr).toNat : Int) ∧
    (before 1 57344 [(1, 24578), (2, 57344)]).fetches :=
  ⟨⟨rfl, by decide, by decide⟩, by decide, rfl, by decide, rfl, by decide, by decide⟩
/-- The difference wraps to a positive value, so that `CMP` does not skip. -/
theorem witness_CompareAfterSubtractTestsTheWrappedDifference :
    exec (.sub 21) (before 1 (-2147483648) [(21, 1)]) = .next (before 1 2147483647 [(21, 1)]) ∧
    exec (.cmp 0) (before 1 2147483647 [(21, 1)]) = .next (before 1 2147483647 [(21, 1)]) := ⟨rfl, rfl⟩
theorem witness_WrapIsTheUniqueCongruentWord :
    (4294967296 : Int) ∣ (0x80000000 : Word).toInt - 2147483648 := by decide
theorem witness_CanonicalMemoryIsDeterminedByItsWords : Memory.wf [(0, 1), (31, 2)] = true ∧
    (∀ a : Addr, Memory.get [(0, 1), (31, 2)] a.toNat = Memory.get [(0, 1), (31, 2)] a.toNat) :=
  ⟨by decide, fun _ => rfl⟩
/-- Program P4: word 0 of the image is 0. -/
theorem witness_ConstructedEngineJoinsResetAfterAZeroWord :
    Image.get (Image.set zeroImage 1 16404) 0 = 0 := by decide
theorem witness_StepKeepsTheInvariant : State.reset.Inv ∧ step State.reset = .next (before 0 0 []) :=
  ⟨⟨rfl, by decide, by decide, by decide, nofun, nofun, nofun⟩, rfl⟩
theorem witness_ReachableStatesMeetTheInvariant :
    (State.reset.Inv ∧ applyCommand .step State.reset = .next (before 0 0 [])) ∧ Reachable (newEngine zeroImage) :=
  ⟨witness_StepKeepsTheInvariant, .newEngine zeroImage⟩
/-- The end of a run by `STP` and one by the fault, each from a Running state, and a Halted state. -/
theorem witness_RunIsTheClosureOfStepToAHaltedState :
    RunsTo (before 0 9 [(1, 57344)]) (setRun false (before 1 9 [(1, 57344)])) ∧
    RunsTo (before 31 9 []) (raiseRunaway (before 32 9 [])) ∧ (setRun false (before 1 9 [])).run = false :=
  ⟨⟨1, rfl⟩, ⟨1, rfl⟩, rfl⟩
theorem witness_RunEndsStoppedAtAStopOrFaultedAtABadAddress :
    ((before 0 9 [(1, 57344)]).Inv ∧ RunsTo (before 0 9 [(1, 57344)]) (setRun false (before 1 9 [(1, 57344)]))) ∧
    ((before 31 9 []).Inv ∧ RunsTo (before 31 9 []) (raiseRunaway (before 32 9 []))) :=
  ⟨⟨⟨by decide, by decide, by decide, by decide, nofun, nofun, nofun⟩, ⟨1, rfl⟩⟩,
    ⟨⟨by decide, by decide, by decide, by decide, nofun, nofun, nofun⟩, ⟨1, rfl⟩⟩⟩
/-- Program P7. -/
theorem witness_OneInstructionLoopNeverReturns : (before (-1) 0 [(0, 5), (5, 0xFFFFFFFF)]).run = true ∧
    step (before (-1) 0 [(0, 5), (5, 0xFFFFFFFF)]) = .next (before (-1) 0 [(0, 5), (5, 0xFFFFFFFF)]) := ⟨rfl, rfl⟩
theorem witness_RawViewReversesTheBits : (0 : Nat) < 32 ∧ (31 : Nat) < 32 := by decide
theorem witness_ColonSelectsTheGrammar : (∀ c ∈ ['3', '1'], c ≠ ':') ∧ ['3', '1'] ≠ [] := by simp
theorem witness_BadEntryIsOnlyTheEmptyLine : parseLine [] = .err .badEntry := by decide
theorem witness_NumberTokensAreDecimalDigits : addressToken? "31".toList = some 31 := by decide
/-- An address and operand token, an extra operand token, and an operand token that is no number. -/
theorem witness_MnemonicsProduceTheirWords : addressToken? "0031".toList = some 31 ∧
    addressToken? "31".toList = some 31 ∧ (∀ c ∈ ['0'], c ≠ ':' ∧ c ≠ ' ') ∧
    ['N', 'U', 'M'] ∈ [['J', 'M', 'P'], ['N', 'U', 'M']] ∧
    ((∀ c ∈ ['x'], c ≠ ':' ∧ c ≠ ' ') ∧ numberToken? ['x'] = none) ∧
    ((∀ c ∈ ['3', ' ', 'C', 'M', 'P'], c ≠ ':') ∧ parseLine ['3', ' ', 'C', 'M', 'P'] = .ok 3 49152) :=
  ⟨by decide, by decide, by simp, by decide, ⟨by simp, by decide⟩, by simp, by decide⟩
theorem witness_NumIsAnotherSpellingOfJmp : (∀ c ∈ ['2', '3'], c ≠ ' ' ∧ c ≠ ':') ∧
    addressToken? ['2', '3'] = some 23 ∧ addressToken? ['3', '1'] = some 31 ∧
    parseLine (['2', '3'] ++ [' ', 'N', 'U', 'M', ' '] ++ ['3', '1']) = .ok 23 31 :=
  ⟨by simp, by decide, by decide, by decide⟩
/-- A bit token one too short, and one of the right length with another character. -/
theorem witness_BinaryLineDefinesEveryWord : addressToken? "0031".toList = some 31 ∧
    (List.replicate 31 '0').length ≠ 32 ∧
    (∃ c ∈ List.replicate 31 '0' ++ ['2'], c ≠ '0' ∧ c ≠ '1') := ⟨by decide, by decide, '2', by simp, by simp⟩
theorem witness_RenderedInstructionAssemblesToItsWord : (Instr.sub 31).sourceForm = true ∧
    (Instr.stp 0).sourceForm = true := by decide
theorem witness_LastDefinitionOfAnAddressWins : loadProgram [] = .ok zeroImage ∧
    (∀ l ∈ [[], "0001 STP".toList], l = [] ∨ ∃ a w, parseLine l = .ok a w) := by
  refine ⟨rfl, fun l hl => ?_⟩
  rcases List.mem_cons.mp hl with rfl | hl
  · exact .inl rfl
  · rw [List.mem_singleton.mp hl]; exact .inr ⟨1, 57344, by decide⟩
/-- A line for each error kind, at the border of its check. -/
theorem witness_EachLineErrorIsGivenExactlyWhereItsCheckFailsFirst :
    parseLine [] = .err .badEntry ∧ parseLine "32 FOO".toList = .err .badAddress ∧
    parseLine "32:".toList = .err .badAddress ∧ parseLine "31:".toList = .err .badMemory ∧
    parseLine "31 ".toList = .err .badInstruction ∧ parseLine "31 cmp 1".toList = .err .badInstruction ∧
    parseLine "31".toList = .err .missingOperand ∧ parseLine "31 JMP".toList = .err .missingOperand ∧
    parseLine "31 STP ".toList = .err .extraOperand ∧ parseLine "31 JMP x ".toList = .err .extraOperand ∧
    parseLine "31 NUM 32".toList = .err .badOperand := by decide

end Sys2Proof.Tests
end

section
/-! PROOFS. The registers `ACC` and `RUN` over all instructions (10_state.md rules R13, R15): what a step does in the
terms of `fetches`, `runsAway` and `nextInstr`, and which instructions write or read either register. -/

namespace Sys2Proof.Machine

/-- `step_cases` in the words of the obligations: the instruction executed is `nextInstr`. -/
theorem step_cases_nextInstr {s t : State} (h : step s = .next t) :
    (s.run = false ∧ t = s) ∨
    (s.runsAway ∧ t = raiseRunaway (preIncrement s)) ∨
    (s.fetches ∧ exec s.nextInstr (preIncrement s) = .next t) := by
  obtain halted | ⟨running, outside, ht⟩ | ⟨running, low, high, hexec⟩ := step_cases h
  · exact .inl halted
  · exact .inr (.inl ⟨⟨running, outside⟩, ht⟩)
  · exact .inr (.inr ⟨⟨running, low, high⟩, hexec⟩)

theorem State.fetches.not_runsAway {s : State} (h : s.fetches) : ¬ s.runsAway :=
  fun away => away.2 h.2

/-- R71 for any number of steps. -/
theorem stepN_of_halted {s : State} (h : s.run = false) (n : Nat) : stepN n s = .next s := by
  induction n with
  | zero => rfl
  | succ n ih => simp [stepN, step_of_halted h, ih]

/-! ### The accumulator -/

theorem exec_changes_acc_only_ldn_sub {i : Instr} {s t : State} (h : exec i s = .next t) (hne : t.acc ≠ s.acc) :
    ∃ a, i = .ldn a ∨ i = .sub a := by
  cases i with
  | ldn a => exact ⟨a, .inl rfl⟩
  | sub a => exact ⟨a, .inr rfl⟩
  | cmp a =>
    obtain ⟨⟩ := h
    exact absurd (by split <;> rfl) hne
  | jmp a | jrp a | sto a | stp a =>
    obtain ⟨⟩ := h
    exact absurd rfl hne

/-- The operand does not depend on the accumulator, so replacing the accumulator before an instruction that does not
read it is the same as replacing it afterwards, but for `LDN`, which overwrites it. -/
theorem exec_setAcc {i : Instr} {s t : State} (x : Word) (hi : ∀ a, i ≠ .sub a ∧ i ≠ .sto a ∧ i ≠ .cmp a)
    (h : exec i s = .next t) :
    ((∃ a, i = .ldn a) ∧ exec i (setAcc x s) = .next t) ∨
    ((∀ a, i ≠ .ldn a) ∧ exec i (setAcc x s) = .next (setAcc x t)) := by
  cases i with
  | ldn a =>
    obtain ⟨⟩ := h
    exact .inl ⟨⟨a, rfl⟩, rfl⟩
  | jmp a | jrp a | stp a =>
    obtain ⟨⟩ := h
    exact .inr ⟨nofun, rfl⟩
  | sub a => exact absurd rfl (hi a).1
  | sto a => exact absurd rfl (hi a).2.1
  | cmp a => exact absurd rfl (hi a).2.2

/-! ### The running flag -/

theorem exec_clears_run_iff_stp {i : Instr} {s t : State} (h : exec i s = .next t) (running : s.run = true) :
    t.run = false ↔ ∃ a, i = .stp a := by
  obtain ⟨a, rfl, rfl⟩ | ⟨a, rfl, rfl⟩ | ⟨a, rfl, rfl⟩ | ⟨a, rfl, rfl⟩ | ⟨a, rfl, rfl⟩ | ⟨a, rfl, -, rfl⟩ |
    ⟨a, rfl, -, rfl⟩ | ⟨a, rfl, rfl⟩ := exec_cases h
  all_goals simp [running]

/-- No instruction reads the running flag: with another value in it, the outcome differs in that flag alone. -/
theorem exec_setRun {i : Instr} {s t : State} (b : Bool) (h : exec i s = .next t) :
    ∃ b', exec i (setRun b s) = .next (setRun b' t) := by
  cases i with
  | cmp a =>
    obtain ⟨⟩ := h
    exact ⟨b, congrArg Host.Outcome.next (apply_ite (setRun b) (accNegative s = true) (setPc (s.pc + 1) s) s).symm⟩
  | jmp a | jrp a | ldn a | sto a | sub a =>
    obtain ⟨⟩ := h
    exact ⟨b, rfl⟩
  | stp a =>
    obtain ⟨⟩ := h
    exact ⟨false, rfl⟩

theorem applyCommand_sets_run_only_reset_reboot {c : Command} {s t : State} (h : applyCommand c s = .next t)
    (halted : s.run = false) (running : t.run = true) : c = .reset ∨ ∃ image, c = .reboot image := by
  cases c with
  | step =>
    have same : step s = .next t := h
    rw [step_of_halted halted] at same
    obtain ⟨⟩ := same
    exact absurd running (by simp [halted])
  | reset => exact .inl rfl
  | reboot image => exact .inr ⟨image, rfl⟩

/-! ### The two obligations -/

/-- Settles O21: a step that changes `ACC` executed an instruction, and `LDN` and `SUB` alone change it; `exec_setAcc`
compares the two runs. -/
theorem accumulatorIsWrittenAndReadOnlyAsListed : Obligations.AccumulatorIsWrittenAndReadOnlyAsListed := by
  refine ⟨fun s t h hne => ?writes, fun i s t x hi h => ?reads, fun s => ?range⟩
  case writes =>
    obtain ⟨-, rfl⟩ | ⟨-, rfl⟩ | ⟨fetches, hexec⟩ := step_cases_nextInstr h
    · exact absurd rfl hne
    · exact absurd rfl hne
    · exact ⟨fetches, exec_changes_acc_only_ldn_sub hexec hne⟩
  case reads =>
    obtain ⟨⟨a, isLdn⟩, hexec⟩ | ⟨notLdn, hexec⟩ := exec_setAcc x hi h
    · exact ⟨t, hexec, rfl, rfl, rfl, rfl, fun _ => rfl, fun notLdn => absurd isLdn (notLdn a)⟩
    · exact ⟨setAcc x t, hexec, rfl, rfl, rfl, rfl, fun ⟨a, isLdn⟩ => absurd isLdn (notLdn a), fun _ => rfl⟩
  case range => exact ⟨s.acc.le_toInt, Int.le_of_lt_add_one s.acc.toInt_lt⟩

/-- Settles O22: a step of a Running engine is the fault or one instruction, a Halted engine takes no step that changes
it, and `exec_setRun` compares the two runs. -/
theorem runningFlagChangesOnlyAsListed : Obligations.RunningFlagChangesOnlyAsListed := by
  refine ⟨fun s t h running => ?clears, fun s n halted => stepN_of_halted halted n,
    fun c s t h => applyCommand_sets_run_only_reset_reboot h, fun image s => ⟨rfl, rfl, rfl⟩, fun s => rfl,
    fun i s t b h => ?reads⟩
  case clears =>
    obtain ⟨halted, -⟩ | ⟨away, rfl⟩ | ⟨fetches, hexec⟩ := step_cases_nextInstr h
    · exact absurd running (by simp [halted])
    · exact iff_of_true rfl (.inl away)
    · rw [exec_clears_run_iff_stp hexec running, or_iff_right fetches.not_runsAway, and_iff_right fetches]
  case reads =>
    obtain ⟨b', hexec⟩ := exec_setRun b h
    exact ⟨setRun b' t, hexec, rfl, rfl, rfl, rfl⟩

end Sys2Proof.Machine
end

section
/-! PROOFS. The raw view of a word (20_memory.md rule R41): `rev32` reverses the bits, and what the number `raw` and its
digits show follows from that. -/

namespace Sys2Proof.Machine

theorem getLsbD_rev32 (u : BitVec 32) {i : Nat} (h : i < 32) : (rev32 u).getLsbD i = u.getLsbD (31 - i) := by
  rw [rev32, BitVec.getLsbD_reverse, BitVec.getMsbD_eq_getLsbD, decide_eq_true h, Bool.true_and]

@[simp] theorem rev32_rev32 (u : BitVec 32) : rev32 (rev32 u) = u := BitVec.reverse_reverse_eq

/-- The number `raw w`, read back as a bit vector. -/
@[simp] theorem ofNat_raw (w : Word) : BitVec.ofNat 32 (raw w) = rev32 w := by
  rw [raw, BitVec.ofNat_toNat, BitVec.setWidth_eq]

/-- A word is the wrap of its own unsigned view. -/
@[simp] theorem wrap32_toNat (w : Word) : wrap32 w.toNat = w := by
  rw [wrap32, BitVec.ofInt_natCast, BitVec.ofNat_toNat, BitVec.setWidth_eq]

/-- Digit `k` from the left is bit `31 - k` of the reversed word, which is bit `k` of the word. -/
theorem rawDigits_eq_bitString (w : Word) : rawDigits w = bitString w := by
  refine List.map_congr_left fun k hk => ?_
  have k_lt : k < 32 := List.mem_range.mp hk
  have reflected : 31 - (31 - k) = k := by omega
  rw [getLsbD_rev32 w (by omega), reflected]

/-- Settles O42: `getLsbD_rev32` gives the bits, `rev32_rev32` the inverse and `rawDigits_eq_bitString` the digits. -/
theorem rawViewReversesTheBits : Obligations.RawViewReversesTheBits := by
  refine ⟨fun w i h => ?bits, fun w => (rev32 w).isLt, rev32_rev32, fun w => ?inverse, rawDigits_eq_bitString,
    by decide, by decide⟩
  case bits => rw [raw, BitVec.testBit_toNat, getLsbD_rev32 w h]
  case inverse => rw [ofNat_raw, rev32_rev32, wrap32_toNat]

end Sys2Proof.Machine
end

section
/-! PROOFS. The one instruction format (30_encoding.md rules R50, R51, R54): where the two fields of a word lie, what
`decode` makes of them, and where `encode` puts them. -/

namespace Sys2Proof

/-! ### The fields of a word -/

theorem getLsbD_opcodeField (w : Word) {i : Nat} (h : i < 3) : (opcodeField w).getLsbD i = w.getLsbD (13 + i) := by
  rw [opcodeField, BitVec.getLsbD_extractLsb', decide_eq_true h, Bool.true_and]

theorem getLsbD_operandField (w : Word) {i : Nat} (h : i < 5) : (operandField w).getLsbD i = w.getLsbD i := by
  rw [operandField, BitVec.getLsbD_extractLsb', decide_eq_true h, Bool.true_and, Nat.zero_add]

/-- The opcode field in the unsigned view of the word (R51). -/
theorem opcodeField_eq_ofNat (w : Word) : opcodeField w = BitVec.ofNat 3 (u32 w / 2 ^ 13 % 8) := by
  have field : (opcodeField w).toNat = u32 w / 2 ^ 13 % 8 := opcodeField_toNat w
  rw [← field, BitVec.ofNat_toNat, BitVec.setWidth_eq]

/-- The operand field in the unsigned view of the word (R51). -/
theorem operandField_eq_ofNat (w : Word) : operandField w = BitVec.ofNat 5 (u32 w % 32) := by
  rw [u32, ← operandField_toNat, BitVec.ofNat_toNat, BitVec.setWidth_eq]

/-- Bits 15 to 13 and 4 to 0, the bits that decoding reads (R50). -/
def fieldBits : Word := ~~~unusedBits

@[simp] theorem opcodeField_and_fieldBits (w : Word) : opcodeField (w &&& fieldBits) = opcodeField w := by
  have ones : fieldBits.extractLsb' 13 3 = BitVec.allOnes 3 := by decide
  rw [opcodeField, BitVec.extractLsb'_and, ones, BitVec.and_allOnes, opcodeField]

@[simp] theorem operandField_and_fieldBits (w : Word) : operandField (w &&& fieldBits) = operandField w := by
  have ones : fieldBits.extractLsb' 0 5 = BitVec.allOnes 5 := by decide
  rw [operandField, BitVec.extractLsb'_and, ones, BitVec.and_allOnes, operandField]

/-! ### Decoding -/

/-- Clearing the unused bits does not change what a word decodes to. -/
@[simp] theorem decode_and_fieldBits (w : Word) : decode (w &&& fieldBits) = decode w := by
  rw [decode, opcodeField_and_fieldBits, operandField_and_fieldBits, decode]

@[simp] theorem operand_decode (w : Word) : (decode w).operand = operandField w := (opOf_code _ _).2

/-! ### Encoding -/

/-- The four fields of an encoded word, the most significant first (R50). -/
theorem encode_eq_append (i : Instr) : encode i = 0#16 ++ BitVec.ofNat 3 (codeOf i) ++ 0#8 ++ i.operand := by
  apply BitVec.eq_of_toNat_eq
  have code_lt := codeOf_lt i
  have operand_lt := i.operand.isLt
  simp only [encode_toNat, BitVec.toNat_append, BitVec.toNat_ofNat, Nat.zero_mod, Nat.zero_shiftLeft, Nat.zero_or,
    Nat.or_zero]
  rw [← Nat.shiftLeft_add_eq_or_of_lt operand_lt]
  omega

theorem encode_and_unusedBits (i : Instr) : encode i &&& unusedBits = 0 := by
  have mask : unusedBits = BitVec.allOnes 16 ++ 0#3 ++ BitVec.allOnes 8 ++ 0#5 := by decide
  rw [encode_eq_append, mask, BitVec.and_append, BitVec.and_append, BitVec.and_append]
  simp only [BitVec.zero_and, BitVec.and_zero]
  rfl

/-- The sign bit of an encoded word is clear. -/
theorem encode_toInt (i : Instr) : (encode i).toInt = codeOf i * 8192 + i.operand.toNat := by
  have code_lt := codeOf_lt i
  have operand_lt := i.operand.isLt
  have small : 2 * (encode i).toNat < 2 ^ 32 := by rw [encode_toNat]; omega
  rw [BitVec.toInt_eq_toNat_of_lt small, encode_toNat]
  norm_cast

theorem opcodeField_encode_ne_five (i : Instr) : opcodeField (encode i) ≠ 5 := fun h =>
  codeOf_ne_five i ((opcodeField_encode i).symm.trans (congrArg BitVec.toNat h))

/-! ### The three obligations -/

/-- Settles O2: the fields are bit ranges of the word, `decode` sees a word only through `fieldBits`, and `encode` leaves
the rest zero. -/
theorem oneFormatWithUnusedBitsIgnored : Obligations.OneFormatWithUnusedBitsIgnored := by
  refine ⟨fun w _ h => getLsbD_opcodeField w h, fun w _ h => getLsbD_operandField w h, fun w w' agree => ?_,
    encode_and_unusedBits⟩
  calc decode w = decode (w &&& fieldBits) := (decode_and_fieldBits w).symm
    _ = decode (w' &&& fieldBits) := congrArg decode agree
    _ = decode w' := decode_and_fieldBits w'

/-- Settles O3: both fields are quotient and remainder of the unsigned view, and `opOf` passes the operand on under every
opcode. -/
theorem decodeReadsOpcodeAndOperandFields : Obligations.DecodeReadsOpcodeAndOperandFields := by
  refine ⟨fun w => ?fields, fun w => ?operand, by decide⟩
  case fields => rw [← opcodeField_eq_ofNat, ← operandField_eq_ofNat, decode]
  case operand => rw [operand_decode, operandField_toNat, u32]

/-- Settles O4: the range follows from the formula, and 40960 has opcode field 5, which no code is. -/
theorem encodePlacesCodeAndOperand : Obligations.EncodePlacesCodeAndOperand := by
  refine ⟨encode_toInt, fun _ => ⟨rfl, rfl, rfl, rfl, rfl, rfl, rfl⟩, fun i => ?range, by decide, by decide, by decide,
    by decide, by decide, by decide, by decide, fun i produced => ?never⟩
  case range =>
    have code_lt := codeOf_lt i
    have operand_lt := i.operand.isLt
    rw [encode_toInt]
    omega
  case never =>
    have field : opcodeField 40960 = 5 := by decide
    exact opcodeField_encode_ne_five i (produced ▸ field)

end Sys2Proof
end

section
/-! PROOFS. The step of a Running engine (40_step_cycle.md rules R72 to R74): what `step` is under `fetches` and under
`runsAway`, the two ways its bounds check can go. -/

namespace Sys2Proof.Machine

theorem step_of_fetches {s : State} (h : s.fetches) : step s = exec s.nextInstr (preIncrement s) := by
  obtain ⟨running, inBounds⟩ := h
  exact step_of_in_bounds running ((fetchInBounds_iff _).mpr inBounds)

theorem step_of_runsAway {s : State} (h : s.runsAway) : step s = .next (raiseRunaway (preIncrement s)) := by
  obtain ⟨running, outside⟩ := h
  have checkFails : fetchInBounds (preIncrement s) = false :=
    Bool.eq_false_iff.mpr fun inBounds => outside ((fetchInBounds_iff _).mp inBounds)
  exact step_of_out_of_bounds running checkFails

/-- Settles O7: under `fetches` the step is the instruction at the incremented `PC`, and the fault that a runaway engine
raises keeps the `PC` it incremented. -/
theorem stepRunsTheInstructionAtTheIncrementedPc : Obligations.StepRunsTheInstructionAtTheIncrementedPc :=
  fun s => ⟨step_of_fetches, fun away => ⟨raiseRunaway (preIncrement s), step_of_runsAway away, rfl⟩⟩

end Sys2Proof.Machine
end

section
/-! PROOFS. The absolute jump and the conditional skip (41_jumps_and_skip.md rules R80, R82): where a Running engine
goes on, and which word a mnemonic after an address token defines. -/

namespace Sys2Proof.Machine

/-! ### Where a Running engine goes on -/

/-- `continuesAt` says the two ways a step of a Running engine can go, for the one address it can name. -/
theorem continuesAt_nextFetch {s : State} (running : s.run = true) : s.continuesAt (nextFetch s) :=
  ⟨rfl, fun inside => step_of_fetches ⟨running, inside⟩, fun outside => step_of_runsAway ⟨running, outside⟩⟩

theorem continuesAt_of_nextFetch_eq {s : State} {x : Int} (running : s.run = true) (next : nextFetch s = x) :
    s.continuesAt x :=
  next ▸ continuesAt_nextFetch running

/-! ### The jump -/

/-- An encoded `JMP` is the number of its operand, because its opcode is 0. -/
theorem encode_jmp_toInt (a : Addr) : (encode (.jmp a)).toInt = a.toNat := by
  simp [encode_toInt, codeOf, Instr.operand]

/-- Settles O10: a jump that reads its own word reads the number of its own address. -/
theorem jumpGoesToTheAddressAfterTheWordNamed : Obligations.JumpGoesToTheAddressAfterTheWordNamed := by
  refine fun a s => ⟨rfl, encode_jmp_toInt a, fun running => continuesAt_of_nextFetch_eq running rfl,
    fun readsItself => ?itself, by decide⟩
  case itself => rw [exec_jmp, operandInt_eq, readsItself, encode_jmp_toInt, setPc]

/-! ### The skip -/

/-- `exec_cmp` with the test moved into `PC`, the one field it decides. -/
theorem exec_cmp_pc (a : Addr) (s : State) :
    exec (.cmp a) s = .next { s with pc := if s.acc.toInt < 0 then s.pc + 1 else s.pc } := by
  rw [exec_cmp]
  simp only [accNegative_iff]
  split <;> rfl

theorem encode_cmp_toInt (a : Addr) : (encode (.cmp a)).toInt = 49152 + a.toNat := by
  have formula := encode_toInt (.cmp a)
  have code : codeOf (.cmp a) = 6 := rfl
  rw [code, Instr.operand] at formula
  omega

theorem toInt_neg_iff_getLsbD (w : Word) : w.toInt < 0 ↔ w.getLsbD 31 = true := by
  rw [← BitVec.msb_eq_getLsbD_last, BitVec.msb_eq_toInt, decide_eq_true_iff]

theorem nextFetch_after_cmp (s : State) :
    nextFetch { s with pc := if s.acc.toInt < 0 then s.pc + 1 else s.pc } =
      if s.acc.toInt < 0 then s.pc + 2 else s.pc + 1 := by
  unfold nextFetch
  split
  · exact Int.add_assoc s.pc 1 1
  · rfl

/-! ### Source text -/

/-- An address token and a space leave the rest of a line without colon to the instruction parser. -/
theorem parseLine_addressToken_space {addrTok rest : List Char} {addr : Addr}
    (isAddr : addressToken? addrTok = some addr) (noColon : ∀ c ∈ rest, c ≠ ':') :
    parseLine (addrTok ++ ' ' :: rest) = parseInstr addr ((tokens rest).1 :: (tokens rest).2) := by
  have notEmpty : (addrTok ++ ' ' :: rest).isEmpty = false := by simp
  have uncut : cutAtColon? (addrTok ++ ' ' :: rest) = none := by
    refine cutAtColon?_eq_none fun c hc => ?_
    obtain inAddr | inRest := List.mem_append.mp hc
    · exact no_colon_of_addressToken? isAddr c inAddr
    · obtain rfl | inRest := List.mem_cons.mp inRest
      · decide
      · exact noColon c inRest
  simp [parseLine, notEmpty, uncut, tokens_append (no_space_of_addressToken? isAddr), parseAssembly, isAddr]

theorem parseLine_cmp {addrTok : List Char} {addr : Addr} (isAddr : addressToken? addrTok = some addr) :
    parseLine (addrTok ++ [' ', 'C', 'M', 'P']) = .ok addr 49152 := by
  have word : encode (.cmp 0) = 49152 := by decide
  rw [parseLine_addressToken_space isAddr (by simp), ← word]
  rfl

/-- Settles O12: the right side of `exec_cmp_pc` names no operand, and the address where execution goes on is the
increment of the `PC` it leaves. -/
theorem compareSkipsExactlyWhenTheAccumulatorIsNegative :
    Obligations.CompareSkipsExactlyWhenTheAccumulatorIsNegative :=
  ⟨fun a s => ⟨exec_cmp_pc a s, toInt_neg_iff_getLsbD s.acc,
    fun b => (exec_cmp_pc b s).trans (exec_cmp_pc a s).symm, encode_cmp_toInt a,
    fun running => continuesAt_of_nextFetch_eq running (nextFetch_after_cmp s)⟩,
    fun _ _ isAddr => parseLine_cmp isAddr⟩

end Sys2Proof.Machine
end

section
/-! PROOFS. Subtraction and store (42_accumulator_and_store.md rules R91 to R93): the wrapped difference in each of its
ranges, the second opcode of `SUB`, which words an assembly line can define, and the fetch of a word just stored. -/

namespace Sys2Proof

/-! ### Wrapping -/

/-- The signed 32-bit integer congruent to `v` modulo 2^32 is what `wrap32 v` reads as. -/
theorem wrap32_toInt_of_dvd {v r : Int} (low : -2147483648 ≤ r) (high : r < 2147483648)
    (congruent : (4294967296 : Int) ∣ r - v) : (wrap32 v).toInt = r := by
  obtain ⟨k, multiple⟩ := congruent
  have r_eq : r = v + 4294967296 * k := by omega
  calc (wrap32 v).toInt = v.bmod 4294967296 := BitVec.toInt_ofInt v
    _ = (v + 4294967296 * k).bmod 4294967296 := (Int.add_mul_bmod_self_left v 4294967296 k).symm
    _ = r.bmod 4294967296 := by rw [r_eq]
    _ = r := Int.bmod_eq_of_le low high

/-! ### Words of the one format -/

/-- The number that `encode` writes, for any opcode value, in the integers of the spec. -/
theorem wrap32_fields (code : Nat) (a : Addr) :
    wrap32 (code * 8192 + a.toNat) = BitVec.ofNat 32 (code * 8192 + a.toNat) := by
  exact_mod_cast BitVec.ofInt_natCast 32 (code * 8192 + a.toNat)

/-- A word written as opcode and operand, opcode 5 too, decodes to what the opcode map makes of the two. -/
theorem decode_wrap32_fields (code : Nat) (a : Addr) :
    decode (wrap32 (code * 8192 + a.toNat)) = opOf (BitVec.ofNat 3 code) a := by
  have operand_lt := a.isLt
  have opcode : opcodeField (BitVec.ofNat 32 (code * 8192 + a.toNat)) = BitVec.ofNat 3 code := by
    apply BitVec.eq_of_toNat_eq
    rw [opcodeField_toNat, BitVec.toNat_ofNat, BitVec.toNat_ofNat]
    omega
  have operand : operandField (BitVec.ofNat 32 (code * 8192 + a.toNat)) = a := by
    apply BitVec.eq_of_toNat_eq
    rw [operandField_toNat, BitVec.toNat_ofNat]
    omega
  rw [wrap32_fields, decode, opcode, operand]

theorem encode_eq_wrap32 (i : Instr) : encode i = wrap32 (codeOf i * 8192 + i.operand.toNat) :=
  (wrap32_fields (codeOf i) i.operand).symm

theorem encode_sub_eq_wrap32 (a : Addr) : encode (.sub a) = wrap32 (32768 + a.toNat) := by
  norm_num [encode_eq_wrap32, codeOf, Instr.operand]

theorem encode_sub_toInt (a : Addr) : (encode (.sub a)).toInt = 32768 + a.toNat := by
  have formula := encode_toInt (.sub a)
  rw [codeOf, Instr.operand] at formula
  omega

theorem encode_sto_toInt (a : Addr) : (encode (.sto a)).toInt = 24576 + a.toNat := by
  have formula := encode_toInt (.sto a)
  rw [codeOf, Instr.operand] at formula
  omega

theorem decode_of_opcodeField_eq_five {w : Word} (isFive : opcodeField w = 5) : decode w = .sub (operandField w) := by
  rw [decode, isFive]
  rfl

namespace Machine

/-! ### Source text -/

/-- The line of an address, an operand-taking mnemonic and an operand defines the encoded word. -/
theorem parseLine_operandInstr {addrTok m opTok : List Char} {addr n : Addr} {mk : Addr → Instr}
    (isAddr : addressToken? addrTok = some addr) (isOperand : addressToken? opTok = some n)
    (plain : ∀ c ∈ m, c ≠ ' ' ∧ c ≠ ':') (notBare : bareInstr? m = none) (isMnemonic : operandInstr? m = some mk) :
    parseLine (addrTok ++ ' ' :: (m ++ ' ' :: opTok)) = .ok addr (encode (mk n)) := by
  have noColon : ∀ c ∈ m ++ ' ' :: opTok, c ≠ ':' := by
    simp only [List.forall_mem_append, List.forall_mem_cons]
    exact ⟨fun c hc => (plain c hc).2, by decide, no_colon_of_addressToken? isOperand⟩
  rw [parseLine_addressToken_space isAddr noColon, tokens_append fun c hc => (plain c hc).1,
    tokens_of_no_space (no_space_of_addressToken? isOperand)]
  simp [parseInstr, notBare, isMnemonic, parseOperands, isOperand]

/-- The assembly grammar defines no word but those of the encoder. -/
theorem exists_encode_of_parseAssembly_ok {addrTok : List Char} {rest : List (List Char)} {a : Addr} {w : Word}
    (accepted : parseAssembly addrTok rest = .ok a w) : ∃ i, w = encode i := by
  unfold parseAssembly at accepted
  split at accepted
  · cases accepted
  · obtain ⟨-, ⟨-, i, -, -, word⟩ | ⟨-, -, mk, n, -, -, -, -, word⟩⟩ := parseInstr_ok accepted
    · exact ⟨i, word⟩
    · exact ⟨mk n, word⟩

theorem exists_encode_of_parseLine_ok {line : Line} {a : Addr} {w : Word} (noColon : ∀ c ∈ line, c ≠ ':')
    (accepted : parseLine line = .ok a w) : ∃ i, w = encode i := by
  rw [parseLine, cutAtColon?_eq_none noColon] at accepted
  split at accepted
  · cases accepted
  · exact exists_encode_of_parseAssembly_ok accepted

/-! ### Subtraction -/

theorem exec_sub_acc (a : Addr) (s : State) :
    exec (.sub a) s = .next { s with acc := wrap32 (s.acc.toInt - (memRead s a).toInt) } := rfl

/-- Settles O14: the difference of two words is less than 2^32 from 0, so one multiple of 2^32 at most brings it into the
signed range. -/
theorem subtractWrapsSilently : Obligations.SubtractWrapsSilently := by
  refine ⟨fun a s => ⟨_, exec_sub_acc a s, rfl, fun above => ?above, fun below => ?below, fun ⟨low, high⟩ => ?within,
    encode_sub_toInt a⟩, fun addrTok opTok addr n isAddr isOperand => ?text⟩
  case above =>
    have acc_lt := s.acc.toInt_lt
    have le_word := (memRead s a).le_toInt
    exact wrap32_toInt_of_dvd (by omega) (by omega) (by omega)
  case below =>
    have le_acc := s.acc.le_toInt
    have word_lt := (memRead s a).toInt_lt
    exact wrap32_toInt_of_dvd (by omega) (by omega) (by omega)
  case within => exact wrap32_toInt_of_dvd low high (by omega)
  case text =>
    rw [List.append_assoc, ← encode_sub_eq_wrap32]
    exact parseLine_operandInstr (m := ['S', 'U', 'B']) isAddr isOperand (by simp) rfl rfl

/-- Settles O6: after decoding nothing tells the two opcodes apart, and the assembly grammar has only the encoder's words,
whose opcode field is a code. -/
theorem aliasOpcodeIsSubtractInEveryRespect : Obligations.AliasOpcodeIsSubtractInEveryRespect := by
  refine ⟨fun _ => decode_of_opcodeField_eq_five, fun a => ⟨?field5, ?field4⟩, fun w s isFive => ?effect,
    opcodeField_encode_ne_five, fun w isFive => ?shown, fun line a w noColon accepted => ?text⟩
  case field5 => exact decode_wrap32_fields 5 a
  case field4 => exact decode_wrap32_fields 4 a
  case effect => rw [decode_of_opcodeField_eq_five isFive, exec_sub_acc]
  case shown =>
    rw [decode_of_opcodeField_eq_five isFive]
    rfl
  case text =>
    obtain ⟨i, rfl⟩ := exists_encode_of_parseLine_ok noColon accepted
    exact opcodeField_encode_ne_five i

/-! ### Store -/

/-- Where the next fetch is the address `a`, the step executes the word at `a`. -/
theorem step_of_nextFetch_eq {s : State} {a : Addr} (running : s.run = true) (next : nextFetch s = a.toNat) :
    step s = exec (decode (memRead s a)) { s with pc := a.toNat } := by
  obtain ⟨-, executes, -⟩ := continuesAt_of_nextFetch_eq running next
  have operand_lt := a.isLt
  rw [executes (by omega), BitVec.ofInt_natCast, BitVec.ofNat_toNat, BitVec.setWidth_eq]

/-- Settles O15: `memRead_memWrite` reads each word back, and the next fetch is one of these reads. -/
theorem storeWritesTheAccumulatorToTheWordNamed : Obligations.StoreWritesTheAccumulatorToTheWordNamed := by
  intro a s
  have stored : memRead (memWrite a s.acc s) a = s.acc := by rw [memRead_memWrite, if_pos rfl]
  refine ⟨memWrite a s.acc s, exec_sto a s, rfl, stored, fun b other => ?kept, encode_sto_toInt a,
    fun running next => ?fetched⟩
  case kept => rw [memRead_memWrite, if_neg other]
  case fetched =>
    have fromMemory := step_of_nextFetch_eq (s := memWrite a s.acc s) running next
    rwa [stored] at fromMemory

end Machine

end Sys2Proof
end

section
/-! PROOFS. Stop (43_stop.md rule R100): `Run` on a Halted engine, and the word of a mnemonic without operand. -/

namespace Sys2Proof.Machine

/-- R77 on a Halted engine: the loop's test fails at once. -/
theorem runsTo_of_halted {s : State} (halted : s.run = false) : RunsTo s s :=
  ⟨0, by simp [runFuel, halted]⟩

theorem encode_stp_toInt (a : Addr) : (encode (.stp a)).toInt = 57344 + a.toNat := by
  have formula := encode_toInt (.stp a)
  rw [codeOf, Instr.operand] at formula
  omega

/-- The line of an address and a mnemonic without operand defines the encoded word. -/
theorem parseLine_bareInstr {addrTok m : List Char} {addr : Addr} {i : Instr}
    (isAddr : addressToken? addrTok = some addr) (plain : ∀ c ∈ m, c ≠ ' ' ∧ c ≠ ':')
    (isMnemonic : bareInstr? m = some i) : parseLine (addrTok ++ ' ' :: m) = .ok addr (encode i) := by
  rw [parseLine_addressToken_space isAddr fun c hc => (plain c hc).2,
    tokens_of_no_space fun c hc => (plain c hc).1]
  simp [parseInstr, isMnemonic]

/-- Settles O16: the state that `STP` leaves is Halted, and what steps, `Run` and the commands do to it is what they do to
every Halted engine. -/
theorem stopHaltsUntilResetOrReboot : Obligations.StopHaltsUntilResetOrReboot := by
  refine ⟨fun a s => ⟨exec_stp a s, encode_stp_toInt a, stepN_of_halted rfl, runsTo_of_halted rfl,
    fun c t command => applyCommand_sets_run_only_reset_reboot command rfl⟩, fun addrTok addr isAddr => ?text,
    by decide⟩
  case text =>
    have word : encode (.stp 0) = 57344 := by decide
    rw [← word]
    exact parseLine_bareInstr isAddr (by simp) rfl

end Sys2Proof.Machine
end

section
/-! PROOFS. The two grammars of a source line (45_program_loader.md rules R112 to R116): what a colon decides, what
follows an address token and a mnemonic, and which words a line can define. -/

namespace Sys2Proof.Machine

/-! ### The two grammars -/

theorem parseLine_of_colon {pre : Line} (noColon : ∀ c ∈ pre, c ≠ ':') (post : Line) :
    parseLine (pre ++ ':' :: post) = parseBinary pre post := by
  simp [parseLine, cutAtColon?_append noColon]

theorem parseLine_of_no_colon {line : Line} (notEmpty : line ≠ []) (noColon : ∀ c ∈ line, c ≠ ':') :
    parseLine line = parseAssembly (tokens line).1 (tokens line).2 := by
  simp [parseLine, notEmpty, cutAtColon?_eq_none noColon]

/-- Where a space stands before the first colon, the text before the colon is no address token. -/
theorem parseLine_of_space_before_colon {pre rest : Line} (noColon : ∀ c ∈ pre, c ≠ ':') (space : ' ' ∈ pre)
    (colon : ':' ∈ rest) : parseLine (pre ++ rest) = .err .badAddress := by
  obtain ⟨mid, post, rfl, notInMid⟩ := List.eq_append_cons_of_mem colon
  have noColon' : ∀ c ∈ pre ++ mid, c ≠ ':' :=
    List.forall_mem_append.mpr ⟨noColon, fun _ inMid isColon => notInMid (isColon ▸ inMid)⟩
  have notAddr : addressToken? (pre ++ mid) = none :=
    Option.eq_none_iff_forall_ne_some.mpr fun a isAddr =>
      no_space_of_addressToken? isAddr ' ' (List.mem_append_left mid space) rfl
  rw [← List.append_assoc, parseLine_of_colon noColon', parseBinary, notAddr]

/-- The first token of a line begins with the line's characters before its first space. -/
theorem tokens_append_of_no_space {m : List Char} (noSpace : ∀ c ∈ m, c ≠ ' ') (rest : Line) :
    tokens (m ++ rest) = (m ++ (tokens rest).1, (tokens rest).2) := by
  induction m with
  | nil => rfl
  | cons c m ih =>
    obtain ⟨notSpace, noSpace⟩ := List.forall_mem_cons.mp noSpace
    simp [tokens, notSpace, ih noSpace]

theorem no_colon_append_space {l r : Line} (left : ∀ c ∈ l, c ≠ ':') (right : ∀ c ∈ r, c ≠ ':') :
    ∀ c ∈ l ++ ' ' :: r, c ≠ ':' :=
  List.forall_mem_append.mpr ⟨left, List.forall_mem_cons.mpr ⟨by decide, right⟩⟩

/-! ### The mnemonics -/

theorem plain_of_bareInstr? {m : List Char} {i : Instr} (isMnemonic : bareInstr? m = some i) :
    ∀ c ∈ m, c ≠ ' ' ∧ c ≠ ':' := by
  have each : ∀ m ∈ [['C', 'M', 'P'], ['S', 'T', 'P']], ∀ c ∈ m, c ≠ ' ' ∧ c ≠ ':' := by simp
  exact each m ((bareInstr?_isSome m).mp (Option.isSome_of_mem isMnemonic))

/-- A mnemonic that takes an operand is not one of the two that take none, and it holds no separator. -/
theorem plain_of_operandInstr? {m : List Char} {mk : Addr → Instr} (isMnemonic : operandInstr? m = some mk) :
    bareInstr? m = none ∧ ∀ c ∈ m, c ≠ ' ' ∧ c ≠ ':' := by
  have each : ∀ m ∈ [['J', 'M', 'P'], ['J', 'R', 'P'], ['L', 'D', 'N'], ['S', 'T', 'O'], ['S', 'U', 'B'],
      ['N', 'U', 'M']], bareInstr? m = none ∧ ∀ c ∈ m, c ≠ ' ' ∧ c ≠ ':' := by
    simp [bareInstr?]
  exact each m ((operandInstr?_isSome m).mp (Option.isSome_of_mem isMnemonic))

theorem sourceForm_of_bareInstr? {m : List Char} {i : Instr} (isMnemonic : bareInstr? m = some i) :
    i.sourceForm = true := by
  unfold bareInstr? at isMnemonic
  split at isMnemonic
  · cases isMnemonic; rfl
  · split at isMnemonic
    · cases isMnemonic; rfl
    · cases isMnemonic

theorem sourceForm_of_operandInstr? {m : List Char} {mk : Addr → Instr} (isMnemonic : operandInstr? m = some mk)
    (n : Addr) : (mk n).sourceForm = true := by
  unfold operandInstr? at isMnemonic
  repeat' split at isMnemonic
  all_goals cases isMnemonic
  all_goals rfl

/-! ### What follows an address token -/

/-- An address token, a mnemonic and a space leave the tokens of the rest of a line without colon as operands. -/
theorem parseLine_mnemonic_space {addrTok m rest : List Char} {addr : Addr}
    (isAddr : addressToken? addrTok = some addr) (plain : ∀ c ∈ m, c ≠ ' ' ∧ c ≠ ':')
    (noColon : ∀ c ∈ rest, c ≠ ':') :
    parseLine (addrTok ++ ' ' :: (m ++ ' ' :: rest)) = parseInstr addr (m :: (tokens rest).1 :: (tokens rest).2) := by
  rw [parseLine_addressToken_space isAddr (no_colon_append_space (fun c hc => (plain c hc).2) noColon),
    tokens_append fun c hc => (plain c hc).1]

/-- A mnemonic that takes no operand is refused when a space follows it, whatever comes then. -/
theorem parseLine_bareInstr_space {addrTok m rest : List Char} {addr : Addr} {i : Instr}
    (isAddr : addressToken? addrTok = some addr) (isMnemonic : bareInstr? m = some i)
    (noColon : ∀ c ∈ rest, c ≠ ':') : parseLine (addrTok ++ ' ' :: (m ++ ' ' :: rest)) = .err .extraOperand := by
  rw [parseLine_mnemonic_space isAddr (plain_of_bareInstr? isMnemonic) noColon]
  simp [parseInstr, isMnemonic]

/-- A line that ends after a mnemonic that takes an operand lacks it. -/
theorem parseLine_operandInstr_end {addrTok m : List Char} {addr : Addr} {mk : Addr → Instr}
    (isAddr : addressToken? addrTok = some addr) (isMnemonic : operandInstr? m = some mk) :
    parseLine (addrTok ++ ' ' :: m) = .err .missingOperand := by
  obtain ⟨notBare, plain⟩ := plain_of_operandInstr? isMnemonic
  rw [parseLine_addressToken_space isAddr fun c hc => (plain c hc).2, tokens_of_no_space fun c hc => (plain c hc).1]
  simp [parseInstr, notBare, isMnemonic, parseOperands]

/-- A mnemonic that takes an operand and a space leave the rest of a line without colon to the operand parser. -/
theorem parseLine_operandInstr_space {addrTok m rest : List Char} {addr : Addr} {mk : Addr → Instr}
    (isAddr : addressToken? addrTok = some addr) (isMnemonic : operandInstr? m = some mk)
    (noColon : ∀ c ∈ rest, c ≠ ':') :
    parseLine (addrTok ++ ' ' :: (m ++ ' ' :: rest)) =
      parseOperands addr mk ((tokens rest).1 :: (tokens rest).2) := by
  obtain ⟨notBare, plain⟩ := plain_of_operandInstr? isMnemonic
  rw [parseLine_mnemonic_space isAddr plain noColon]
  simp [parseInstr, notBare, isMnemonic]

/-- The word of an operand-taking mnemonic in the integers of the spec (R54). -/
theorem parseLine_operandInstr_word {addrTok m opTok : List Char} {addr n : Addr} {mk : Addr → Instr} {v : Int}
    (isAddr : addressToken? addrTok = some addr) (isOperand : addressToken? opTok = some n)
    (isMnemonic : operandInstr? m = some mk) (value : codeOf (mk n) * 8192 + (mk n).operand.toNat = v) :
    parseLine (addrTok ++ ' ' :: (m ++ ' ' :: opTok)) = .ok addr (wrap32 v) := by
  obtain ⟨notBare, plain⟩ := plain_of_operandInstr? isMnemonic
  rw [← value, ← encode_eq_wrap32]
  exact parseLine_operandInstr isAddr isOperand plain notBare isMnemonic

/-! ### The words of the assembly grammar -/

theorem canonicalWord_encode (i : Instr) : canonicalWord (encode i) = true := by
  simpa [canonicalWord, encode_and_unusedBits, opcodeField] using opcodeField_encode_ne_five i

/-- An accepted line without colon has an address token first, and the instruction parser accepts the others. -/
theorem parseInstr_of_parseLine_ok {line : Line} {a : Addr} {w : Word} (noColon : ∀ c ∈ line, c ≠ ':')
    (accepted : parseLine line = .ok a w) : ∃ addr, parseInstr addr (tokens line).2 = .ok a w := by
  have notEmpty : line ≠ [] := by rintro rfl; cases accepted
  rw [parseLine_of_no_colon notEmpty noColon, parseAssembly] at accepted
  split at accepted
  · cases accepted
  · exact ⟨_, accepted⟩

theorem exists_sourceForm_of_parseInstr_ok {addr a : Addr} {w : Word} {rest : List (List Char)}
    (accepted : parseInstr addr rest = .ok a w) : ∃ i : Instr, i.sourceForm = true ∧ w = encode i := by
  obtain ⟨-, ⟨m, i, -, isMnemonic, word⟩ | ⟨m, t, mk, n, -, -, isMnemonic, -, word⟩⟩ := parseInstr_ok accepted
  · exact ⟨i, sourceForm_of_bareInstr? isMnemonic, word⟩
  · exact ⟨mk n, sourceForm_of_operandInstr? isMnemonic n, word⟩

/-- Settles O47: each line is an address token, a mnemonic and what the operand parser makes of the other tokens, and an
accepted line is the encoding of the instruction it names. -/
theorem mnemonicsProduceTheirWords : Obligations.MnemonicsProduceTheirWords := by
  refine ⟨fun addrTok opTok addr n isAddr isOperand => ?words, fun addrTok addr isAddr => ?bare,
    fun addrTok rest addr isAddr noColon => ?bareExtra, fun addrTok m addr isAddr isOperandMnemonic => ?errors,
    fun line a w noColon accepted => ?canonical⟩
  case words =>
    have word {m : List Char} {mk : Addr → Instr} {v : Int} :=
      parseLine_operandInstr_word (m := m) (mk := mk) (v := v) isAddr isOperand
    simp only [List.append_assoc]
    refine ⟨word (m := ['J', 'M', 'P']) rfl ?_, word (m := ['J', 'R', 'P']) rfl ?_,
      word (m := ['L', 'D', 'N']) rfl ?_, word (m := ['S', 'T', 'O']) rfl ?_, word (m := ['S', 'U', 'B']) rfl ?_,
      word (m := ['N', 'U', 'M']) rfl ?_⟩ <;> norm_num [codeOf, Instr.operand]
  case bare =>
    have cmpWord : encode (.cmp 0) = 49152 := by decide
    have stpWord : encode (.stp 0) = 57344 := by decide
    rw [← cmpWord, ← stpWord]
    exact ⟨parseLine_bareInstr isAddr (by simp) rfl, parseLine_bareInstr isAddr (by simp) rfl⟩
  case bareExtra =>
    simp only [List.append_assoc]
    exact ⟨parseLine_bareInstr_space (m := ['C', 'M', 'P']) isAddr rfl noColon,
      parseLine_bareInstr_space (m := ['S', 'T', 'P']) isAddr rfl noColon⟩
  case errors =>
    obtain ⟨mk, isMnemonic⟩ := Option.isSome_iff_exists.mp ((operandInstr?_isSome m).mpr isOperandMnemonic)
    refine ⟨parseLine_operandInstr_end isAddr isMnemonic, fun opTok plain =>
      ⟨fun notNumber => ?badOperand, fun rest noColon => ⟨.extraOperand, ?extraOperand⟩⟩⟩
    case badOperand =>
      have notAddr : addressToken? opTok = none := by rw [addressToken?, notNumber, Option.bind_none]
      rw [List.append_assoc, List.cons_append,
        parseLine_operandInstr_space isAddr isMnemonic fun c hc => (plain c hc).1,
        tokens_of_no_space fun c hc => (plain c hc).2]
      simp [parseOperands, notAddr]
    case extraOperand =>
      have noColon' := no_colon_append_space (fun c hc => (plain c hc).1) noColon
      simp only [List.append_assoc, List.cons_append]
      rw [parseLine_operandInstr_space isAddr isMnemonic noColon', tokens_append fun c hc => (plain c hc).2]
      rfl
  case canonical =>
    obtain ⟨addr, accepted⟩ := parseInstr_of_parseLine_ok noColon accepted
    obtain ⟨i, isSource, rfl⟩ := exists_sourceForm_of_parseInstr_ok accepted
    exact ⟨canonicalWord_encode i, i, isSource, rfl⟩

/-! ### The mnemonic `NUM` -/

/-- The instruction parser does not tell a token that begins with `NUM` from one that begins with `JMP`: both are that
mnemonic when the token ends there, and no mnemonic otherwise. -/
theorem parseInstr_num_eq_jmp (addr : Addr) (t : List Char) (operands : List (List Char)) :
    parseInstr addr ((['N', 'U', 'M'] ++ t) :: operands) = parseInstr addr ((['J', 'M', 'P'] ++ t) :: operands) := by
  have bare : bareInstr? (['N', 'U', 'M'] ++ t) = bareInstr? (['J', 'M', 'P'] ++ t) := by simp [bareInstr?]
  have operand : operandInstr? (['N', 'U', 'M'] ++ t) = operandInstr? (['J', 'M', 'P'] ++ t) := by
    simp [operandInstr?]
  simp only [parseInstr, bare, operand]

/-- A line without colon that starts with a whole token, a space and some characters `m` of the next: the assembly grammar
gets the token as the address, and then a token that begins with `m`. -/
theorem parseLine_token_space_append {addrTok m rest : List Char} (plainAddr : ∀ c ∈ addrTok, c ≠ ' ' ∧ c ≠ ':')
    (plain : ∀ c ∈ m, c ≠ ' ' ∧ c ≠ ':') (noColon : ∀ c ∈ rest, c ≠ ':') :
    parseLine (addrTok ++ ' ' :: (m ++ rest)) =
      parseAssembly addrTok ((m ++ (tokens rest).1) :: (tokens rest).2) := by
  have noColon' := no_colon_append_space (fun c hc => (plainAddr c hc).2)
    (List.forall_mem_append.mpr ⟨fun c hc => (plain c hc).2, noColon⟩)
  rw [parseLine_of_no_colon (by simp) noColon', tokens_append fun c hc => (plainAddr c hc).1,
    tokens_append_of_no_space fun c hc => (plain c hc).1]

theorem parseOperands_ok {addr a : Addr} {mk : Addr → Instr} {operands : List (List Char)} {w : Word}
    (accepted : parseOperands addr mk operands = .ok a w) : a = addr ∧ ∃ n, w = encode (mk n) := by
  unfold parseOperands at accepted
  split at accepted
  · cases accepted
  · split at accepted
    · cases accepted
    · cases accepted; exact ⟨rfl, _, rfl⟩
  · cases accepted

theorem u32_encode_jmp_le (n : Addr) : u32 (encode (.jmp n)) ≤ 31 := by
  have operand_lt := n.isLt
  rw [u32, encode_toNat, codeOf, Instr.operand]
  omega

/-- Settles O48: with a colon in the rest both lines are refused for their address, and without one they have the same
tokens but for the mnemonic. -/
theorem numIsAnotherSpellingOfJmp : Obligations.NumIsAnotherSpellingOfJmp := by
  refine ⟨fun addrTok rest plainAddr => ?same, fun addrTok opTok addr n isAddr isOperand => ⟨?word, ?decoded⟩,
    fun addrTok opTok addr a w isAddr accepted => ?range⟩
  case same =>
    by_cases colon : ':' ∈ rest
    · have refused {m : List Char} (plain : ∀ c ∈ m, c ≠ ':') :
          parseLine (addrTok ++ ' ' :: m ++ rest) = .err .badAddress :=
        parseLine_of_space_before_colon (no_colon_append_space (fun c hc => (plainAddr c hc).2) plain) (by simp) colon
      rw [refused (by simp), refused (by simp)]
    · have noColon : ∀ c ∈ rest, c ≠ ':' := fun c hc isColon => colon (isColon ▸ hc)
      have num := parseLine_token_space_append (m := ['N', 'U', 'M']) plainAddr (by simp) noColon
      have jmp := parseLine_token_space_append (m := ['J', 'M', 'P']) plainAddr (by simp) noColon
      rw [List.append_assoc, List.append_assoc]
      refine num.trans (Eq.trans ?_ jmp.symm)
      simp only [parseAssembly, parseInstr_num_eq_jmp]
  case word =>
    rw [List.append_assoc]
    exact parseLine_operandInstr_word (m := ['N', 'U', 'M']) isAddr isOperand rfl (by simp [codeOf, Instr.operand])
  case decoded => simpa [opOf] using decode_wrap32_fields 0 n
  case range =>
    have noColon : ∀ c ∈ opTok, c ≠ ':' := by
      rintro _ colon rfl
      rw [parseLine_of_space_before_colon (no_colon_append_space (no_colon_of_addressToken? isAddr) (by simp))
        (by simp) colon] at accepted
      cases accepted
    rw [List.append_assoc] at accepted
    obtain ⟨sameAddr, n, rfl⟩ := parseOperands_ok
      ((parseLine_operandInstr_space (m := ['N', 'U', 'M']) isAddr rfl noColon).symm.trans accepted)
    exact ⟨sameAddr, u32_encode_jmp_le n⟩

end Sys2Proof.Machine
end

section
/-! PROOFS. The loader (45_program_loader.md rules R113, R131 to R133): a program is a run of lines that load, and then
its end or its first refused line. -/

namespace Sys2Proof.Machine

/-! ### One line -/

/-- A line that does not end a load: a blank one, or one that parses (R131, R132). -/
def LineLoads (l : Line) : Prop := l = [] ∨ ∃ a w, parseLine l = .ok a w

/-- An image after a line that loads. A blank line does not parse and leaves it as it is (R131, R132). -/
def defineLine (image : Image) (l : Line) : Image :=
  match parseLine l with
  | .ok addr word => Image.set image addr word
  | .err _ => image

theorem get_defineLine_of_ok (image : Image) {l : Line} {a : Addr} {w : Word} (defines : parseLine l = .ok a w) :
    Image.get (defineLine image l) a = w := by
  simp [defineLine, defines, Image.get_set]

theorem get_defineLine_of_not_ok (image : Image) {l : Line} {a : Addr} (other : ∀ v, parseLine l ≠ .ok a v) :
    Image.get (defineLine image l) a = Image.get image a := by
  unfold defineLine
  split
  · next addr word defines =>
    have ne : a ≠ addr := fun same => other word (same ▸ defines)
    rw [Image.get_set, if_neg ne]
  · rfl

theorem lineLoads_or_refused (l : Line) : LineLoads l ∨ l ≠ [] ∧ ∃ kind, parseLine l = .err kind := by
  by_cases blank : l = []
  · exact .inl (.inl blank)
  · cases parsed : parseLine l with
    | ok a w => exact .inl (.inr ⟨a, w, parsed⟩)
    | err kind => exact .inr ⟨blank, kind, rfl⟩

theorem loadFrom_cons_of_loads {l : Line} (loads : LineLoads l) (n : Nat) (image : Image) (ls : List Line) :
    loadFrom n image (l :: ls) = loadFrom (n + 1) (defineLine image l) ls := by
  obtain rfl | ⟨a, w, parsed⟩ := loads
  · rfl
  · have notBlank : l ≠ [] := by rintro rfl; cases parsed
    simp [loadFrom, notBlank, defineLine, parsed]

theorem loadFrom_cons_of_refused {l : Line} {kind : LineError} (notBlank : l ≠ []) (refused : parseLine l = .err kind)
    (n : Nat) (image : Image) (ls : List Line) : loadFrom n image (l :: ls) = .err kind n := by
  simp [loadFrom, notBlank, refused]

/-! ### A whole program -/

/-- Lines that load do nothing but count and define their words. -/
theorem loadFrom_append_of_loads {pre : List Line} (loads : ∀ l ∈ pre, LineLoads l) (n : Nat) (image : Image)
    (ls : List Line) :
    loadFrom n image (pre ++ ls) = loadFrom (n + pre.length) (pre.foldl defineLine image) ls := by
  induction pre generalizing n image with
  | nil => rfl
  | cons l pre ih =>
    obtain ⟨headLoads, tailLoads⟩ := List.forall_mem_cons.mp loads
    rw [List.cons_append, loadFrom_cons_of_loads headLoads, ih tailLoads, List.length_cons, List.foldl_cons,
      Nat.add_right_comm, Nat.add_assoc]

theorem loadProgram_of_loads {lines : List Line} (loads : ∀ l ∈ lines, LineLoads l) :
    loadProgram lines = .ok (lines.foldl defineLine zeroImage) := by
  have load := loadFrom_append_of_loads loads 1 zeroImage []
  rwa [List.append_nil] at load

theorem loadProgram_of_refused {pre post : List Line} {bad : Line} {kind : LineError}
    (loads : ∀ l ∈ pre, LineLoads l) (notBlank : bad ≠ []) (refused : parseLine bad = .err kind) :
    loadProgram (pre ++ bad :: post) = .err kind (pre.length + 1) := by
  rw [loadProgram, loadFrom_append_of_loads loads, loadFrom_cons_of_refused notBlank refused, Nat.add_comm]

/-- Every line of a program loads, or there is a first one that is refused. -/
theorem forall_loads_or_exists_first_refused (lines : List Line) :
    (∀ l ∈ lines, LineLoads l) ∨ ∃ pre bad post kind, lines = pre ++ bad :: post ∧
      (∀ l ∈ pre, LineLoads l) ∧ bad ≠ [] ∧ parseLine bad = .err kind := by
  induction lines with
  | nil => exact .inl (List.forall_mem_nil _)
  | cons l ls ih =>
    obtain headLoads | ⟨notBlank, kind, refused⟩ := lineLoads_or_refused l
    · obtain tailLoads | ⟨pre, bad, post, kind, rfl, preLoads, refused⟩ := ih
      · exact .inl (List.forall_mem_cons.mpr ⟨headLoads, tailLoads⟩)
      · exact .inr ⟨l :: pre, bad, post, kind, rfl, List.forall_mem_cons.mpr ⟨headLoads, preLoads⟩, refused⟩
    · exact .inr ⟨[], l, ls, kind, rfl, List.forall_mem_nil _, notBlank, refused⟩

theorem foldl_defineLine_of_loadProgram_ok {lines : List Line} {image : Image} (loaded : loadProgram lines = .ok image) :
    image = lines.foldl defineLine zeroImage := by
  obtain loads | ⟨pre, bad, post, kind, rfl, loads, notBlank, refused⟩ := forall_loads_or_exists_first_refused lines
  · rw [loadProgram_of_loads loads] at loaded
    exact (LoadResult.ok.inj loaded).symm
  · rw [loadProgram_of_refused loads notBlank refused] at loaded
    cases loaded

/-- The words that a list of lines leaves in an image: at each address the last one defined, or what was there. -/
theorem get_foldl_defineLine (lines : List Line) (image : Image) (a : Addr) :
    (∃ pre l post w, lines = pre ++ l :: post ∧ parseLine l = .ok a w ∧
      (∀ m ∈ post, ∀ v, parseLine m ≠ .ok a v) ∧ Image.get (lines.foldl defineLine image) a = w) ∨
    ((∀ m ∈ lines, ∀ v, parseLine m ≠ .ok a v) ∧
      Image.get (lines.foldl defineLine image) a = Image.get image a) := by
  induction lines generalizing image with
  | nil => exact .inr ⟨List.forall_mem_nil _, rfl⟩
  | cons l ls ih =>
    rw [List.foldl_cons]
    obtain ⟨pre, last, post, w, split, defines, noLater, word⟩ | ⟨noneInTail, word⟩ := ih (defineLine image l)
    · exact .inl ⟨l :: pre, last, post, w, congrArg (l :: ·) split, defines, noLater, word⟩
    · by_cases defines : ∃ w, parseLine l = .ok a w
      · obtain ⟨w, defines⟩ := defines
        exact .inl ⟨[], l, ls, w, rfl, defines, noneInTail, word.trans (get_defineLine_of_ok image defines)⟩
      · have other : ∀ v, parseLine l ≠ .ok a v := not_exists.mp defines
        exact .inr ⟨List.forall_mem_cons.mpr ⟨other, noneInTail⟩, word.trans (get_defineLine_of_not_ok image other)⟩

/-- Settles O51: a program is lines that load and then its end or its first refused line, and the load of each of the two is
known. -/
theorem firstBadLineAbortsTheLoad : Obligations.FirstBadLineAbortsTheLoad := by
  intro lines kind n
  constructor
  · intro failed
    obtain loads | ⟨pre, bad, post, kind', rfl, loads, notBlank, refused⟩ := forall_loads_or_exists_first_refused lines
    · rw [loadProgram_of_loads loads] at failed
      cases failed
    · rw [loadProgram_of_refused loads notBlank refused] at failed
      cases failed
      exact ⟨pre, bad, post, rfl, rfl, notBlank, refused, loads⟩
  · rintro ⟨pre, bad, post, rfl, rfl, notBlank, refused, loads⟩
    exact loadProgram_of_refused loads notBlank refused

/-- Settles O52: the image of a load is what its lines define, one after the other, from the image of zeros. -/
theorem lastDefinitionOfAnAddressWins : Obligations.LastDefinitionOfAnAddressWins := by
  refine ⟨fun lines image a loaded => ?words, fun lines loads => ⟨_, loadProgram_of_loads loads⟩, rfl⟩
  case words =>
    have words := get_foldl_defineLine lines zeroImage a
    rwa [Image.get_zeroImage, ← foldl_defineLine_of_loadProgram_ok loaded] at words

/-! ### The kind `BadEntry` -/

theorem parseBinary_ne_badEntry (addrTok bitTok : List Char) : parseBinary addrTok bitTok ≠ .err .badEntry := by
  unfold parseBinary
  split
  · simp
  · split <;> simp

theorem parseOperands_ne_badEntry (addr : Addr) (mk : Addr → Instr) (operands : List (List Char)) :
    parseOperands addr mk operands ≠ .err .badEntry := by
  unfold parseOperands
  split
  · simp
  · split <;> simp
  · simp

theorem parseInstr_ne_badEntry (addr : Addr) (rest : List (List Char)) : parseInstr addr rest ≠ .err .badEntry := by
  unfold parseInstr
  split
  · simp
  · split
    · split <;> simp
    · split
      · simp
      · exact parseOperands_ne_badEntry _ _ _

theorem parseAssembly_ne_badEntry (addrTok : List Char) (rest : List (List Char)) :
    parseAssembly addrTok rest ≠ .err .badEntry := by
  unfold parseAssembly
  split
  · simp
  · exact parseInstr_ne_badEntry _ _

theorem parseLine_eq_badEntry_iff (line : Line) : parseLine line = .err .badEntry ↔ line = [] := by
  refine ⟨fun badEntry => ?_, fun blank => blank ▸ rfl⟩
  unfold parseLine at badEntry
  split at badEntry
  · next blank => exact List.isEmpty_iff.mp blank
  · split at badEntry
    · exact absurd badEntry (parseBinary_ne_badEntry _ _)
    · exact absurd badEntry (parseAssembly_ne_badEntry _ _)

/-- Settles O44: a load ends only at a line that is not blank. -/
theorem badEntryIsOnlyTheEmptyLine : Obligations.BadEntryIsOnlyTheEmptyLine := by
  refine ⟨rfl, fun line => (parseLine_eq_badEntry_iff line).mp, fun lines n failed => ?_⟩
  obtain ⟨_, bad, _, _, _, notBlank, refused, _⟩ := (firstBadLineAbortsTheLoad lines .badEntry n).mp failed
  exact notBlank ((parseLine_eq_badEntry_iff bad).mp refused)

end Sys2Proof.Machine
end

section
/-! PROOFS. Initialisation and hazards (70_reset_and_hazards.md rules R162, R170 to R172, R174, R177): the next step
after a jump, after a store into code and after `Reset` and `Reboot`. -/

namespace Sys2Proof.Machine

/-! ### The instruction at the next fetch -/

theorem exec_of_nextInstr_eq {s t : State} {i : Instr} (fetches : s.fetches) (current : s.nextInstr = i)
    (stepped : step s = .next t) : exec i (preIncrement s) = .next t := by
  rw [← current, ← step_of_fetches fetches, stepped]

theorem nextInstr_of_nextFetch_eq {s : State} {a : Addr} (next : nextFetch s = a.toNat) :
    s.nextInstr = decode (memRead s a) := by
  rw [State.nextInstr, next, BitVec.ofInt_natCast, BitVec.ofNat_toNat, BitVec.setWidth_eq]

theorem memRead_congr {s t : State} (same : s.mem = t.mem) (a : Addr) : memRead s a = memRead t a :=
  congrArg (Memory.get · a.toNat) same

/-- R142 for the address that `continuesAt` names. -/
theorem faults_of_continuesAt {s : State} {x : Int} (goesOn : s.continuesAt x) (outside : ¬ (0 ≤ x ∧ x ≤ 31)) :
    ∃ u, step s = .next u ∧ u.faulted ∧ u.pc = x := by
  obtain ⟨-, -, faults⟩ := goesOn
  exact ⟨_, faults outside, ⟨rfl, rfl⟩, rfl⟩

/-! ### Jumps -/

/-- Settles O26: both jumps leave the address just before the one where execution goes on, and 32 is no address. -/
theorem jumpsAreIndirectAndOffByOne : Obligations.JumpsAreIndirectAndOffByOne := by
  intro s t a fetches stepped
  have running : s.run = true := fetches.1
  refine ⟨fun isJmp => ?jmp, fun isJrp => ?jrp⟩
  case jmp =>
    obtain ⟨⟩ := exec_of_nextInstr_eq fetches isJmp stepped
    have goesOn : (setPc (memRead s a).toInt (preIncrement s)).continuesAt ((memRead s a).toInt + 1) :=
      continuesAt_of_nextFetch_eq running rfl
    refine ⟨goesOn, fun isMinusOne => ?toZero, fun is31 => ?faults⟩
    case toZero => exact congrArg (· + 1) isMinusOne
    case faults =>
      have past : (memRead s a).toInt + 1 = 32 := congrArg (· + 1) is31
      exact faults_of_continuesAt (past ▸ goesOn) (by decide)
  case jrp =>
    obtain ⟨⟩ := exec_of_nextInstr_eq fetches isJrp stepped
    exact continuesAt_of_nextFetch_eq running rfl

/-! ### A store into code -/

/-- Settles O27: a fetch reads the memory that the store left, and nothing else. -/
theorem storeToCodeTakesEffectAtOnce : Obligations.StoreToCodeTakesEffectAtOnce := by
  intro s t a fetches isSto stepped
  have running : s.run = true := fetches.1
  have effect := exec_of_nextInstr_eq fetches isSto stepped
  obtain ⟨_, effect', frame, stored, -, -, fetched⟩ := storeWritesTheAccumulatorToTheWordNamed a (preIncrement s)
  obtain ⟨⟩ := effect.symm.trans effect'
  have samePc : t.pc = (preIncrement s).pc := by rw [frame]
  refine ⟨stored, fun next => ?nextStep, fun u sameMemory _ next => ?anyFetch⟩
  case nextStep =>
    rw [nextFetch, samePc] at next
    exact fetched running next
  case anyFetch => rw [nextInstr_of_nextFetch_eq next, memRead_congr sameMemory, stored, preIncrement_acc]

/-! ### Reset and reboot -/

theorem memRead_reboot (image : Image) (s : State) (a : Addr) : memRead (reboot image s) a = Image.get image a :=
  Memory.get_ofImage image a

/-- Settles O33: `memRead_reboot` gives the words, and a reset state goes on at 1 because it is Running with `PC` 0. -/
theorem rebootReplacesMemoryThenResets : Obligations.RebootReplacesMemoryThenResets :=
  fun image s => ⟨rfl, rfl, rfl, rfl, memRead_reboot image s, rfl, continuesAt_of_nextFetch_eq rfl rfl⟩

/-- An image whose first instruction, `STO 0`, overwrites itself with the 0 in `ACC`. -/
def selfErasingImage : Image := Image.set zeroImage 0 (encode (.sto 0))

theorem step_newEngine_selfErasingImage :
    step (newEngine selfErasingImage) = .next { newEngine zeroImage with pc := 0 } := rfl

/-- Settles O34: after one step on `selfErasingImage` word 0 is 0, and a reset leaves it so. -/
theorem resetDoesNotReloadAndRebootDoes : Obligations.ResetDoesNotReloadAndRebootDoes :=
  ⟨fun _ => ⟨rfl, rfl⟩, fun image s => ⟨rfl, memRead_reboot image s⟩,
    selfErasingImage, _, 0, step_newEngine_selfErasingImage, by decide⟩

end Sys2Proof.Machine
end

section
/-! PROOFS. The round-trip laws of the codec (30_encoding.md rules R52, R55): a word is its two fields and its unused
bits, and `encode` writes all three. -/

namespace Sys2Proof

/-! ### A word is its fields and its unused bits -/

/-- Every bit position lies in the opcode field, in the operand field or under the mask of unused bits (R50). -/
theorem bit_position_cases {i : Nat} (h : i < 32) :
    (13 ≤ i ∧ i < 16) ∨ i < 5 ∨ unusedBits.getLsbD i = true := by
  have each : ∀ i < 32, (13 ≤ i ∧ i < 16) ∨ i < 5 ∨ unusedBits.getLsbD i = true := by decide
  exact each i h

theorem word_eq_of_fields {w w' : Word} (opcode : opcodeField w = opcodeField w')
    (operand : operandField w = operandField w') (unused : w &&& unusedBits = w' &&& unusedBits) : w = w' := by
  refine BitVec.eq_of_getLsbD_eq fun i h => ?_
  obtain ⟨low, high⟩ | inOperand | isUnused := bit_position_cases h
  · obtain ⟨j, rfl⟩ := Nat.exists_eq_add_of_le low
    have inOpcode : j < 3 := by omega
    rw [← getLsbD_opcodeField w inOpcode, opcode, getLsbD_opcodeField w' inOpcode]
  · rw [← getLsbD_operandField w inOperand, operand, getLsbD_operandField w' inOperand]
  · have bit := congrArg (BitVec.getLsbD · i) unused
    simpa only [BitVec.getLsbD_and, isUnused, Bool.and_true] using bit

theorem canonicalWord_iff (w : Word) : canonicalWord w = true ↔ w &&& unusedBits = 0 ∧ opcodeField w ≠ 5 := by
  simp [canonicalWord, opcodeField]

/-! ### Round trips -/

@[simp] theorem decode_encode (i : Instr) : decode (encode i) = i := by
  have opcode : opcodeField (encode i) = BitVec.ofNat 3 (codeOf i) := by
    rw [← opcodeField_encode, BitVec.ofNat_toNat, BitVec.setWidth_eq]
  rw [decode, opcode, operandField_encode, opOf_codeOf]

/-- Re-encoding keeps every opcode field but 5. -/
theorem opcodeField_encode_decode {w : Word} (notFive : opcodeField w ≠ 5) :
    opcodeField (encode (decode w)) = opcodeField w := by
  apply BitVec.eq_of_toNat_eq
  rw [opcodeField_encode, decode, (opOf_code _ _).1, if_neg notFive]

theorem operandField_encode_decode (w : Word) : operandField (encode (decode w)) = operandField w := by
  rw [operandField_encode, operand_decode]

theorem encode_decode_of_canonicalWord {w : Word} (canonical : canonicalWord w = true) : encode (decode w) = w := by
  obtain ⟨unused, notFive⟩ := (canonicalWord_iff w).mp canonical
  exact word_eq_of_fields (opcodeField_encode_decode notFive) (operandField_encode_decode w)
    ((encode_and_unusedBits _).trans unused.symm)

/-- Settles O5: `encode` writes the fields that `decode` reads, so a word is the encoding of what it decodes to exactly
when it is a word that `encode` writes. -/
theorem decodeAndEncodeAgree : Obligations.DecodeAndEncodeAgree := by
  refine ⟨decode_encode, fun w => decode_encode (decode w), fun w => ⟨fun same => ?_, encode_decode_of_canonicalWord⟩⟩
  rw [← same]
  exact Machine.canonicalWord_encode (decode w)

/-- Settles O1: the decoder run on each of the eight words. -/
theorem specWordsDecodeToTheirInstructions : Obligations.SpecWordsDecodeToTheirInstructions := by
  unfold Obligations.SpecWordsDecodeToTheirInstructions
  decide

end Sys2Proof
end

section
/-! PROOFS. What each operation changes and what it leaves (40_step_cycle.md rules R70 to R75), and the one exception
(60_exceptions.md rules R141, R142): it is raised at a fetch, never by an operation. -/

namespace Sys2Proof.Machine

/-! ### Frames -/

/-- Settles O17: the three instructions answer the state with another `PC`. -/
theorem controlTransferFrame : Obligations.ControlTransferFrame := by
  rintro i a s t (rfl | rfl | rfl) executed
  · obtain ⟨⟩ := executed
    exact ⟨rfl, rfl, rfl, fun _ => rfl⟩
  · obtain ⟨⟩ := executed
    exact ⟨rfl, rfl, rfl, fun _ => rfl⟩
  · obtain ⟨⟩ := (exec_cmp_pc a s).symm.trans executed
    exact ⟨rfl, rfl, rfl, fun _ => rfl⟩

/-- Settles O18: both instructions answer the state with another `ACC`. -/
theorem accumulatorArithmeticFrame : Obligations.AccumulatorArithmeticFrame := by
  rintro i a s t (rfl | rfl) executed
  · obtain ⟨⟩ := executed
    exact ⟨rfl, rfl, rfl, fun _ => rfl⟩
  · obtain ⟨⟩ := executed
    exact ⟨rfl, rfl, rfl, fun _ => rfl⟩

/-- Settles O19: `memRead_memWrite` reads each word back, and the effective address is the operand. -/
theorem storeFrame : Obligations.StoreFrame := by
  rintro a _ s t executed rfl
  obtain ⟨⟩ := executed
  refine ⟨rfl, rfl, rfl, rfl, ?stored, fun b other => ?kept⟩
  case stored => rw [memRead_memWrite, if_pos rfl]
  case kept => rw [memRead_memWrite, if_neg other]

/-- Settles O20: `STP` answers the state with another `RUN`. -/
theorem stopFrame : Obligations.StopFrame := by
  intro a s t executed
  obtain ⟨⟩ := executed
  exact ⟨rfl, rfl, rfl, fun _ => rfl⟩

/-- No operation raises the fault or clears it (R142). -/
theorem exec_fault {i : Instr} {s t : State} (executed : exec i s = .next t) : t.fault = s.fault := by
  cases i with
  | cmp a =>
    obtain ⟨⟩ := (exec_cmp_pc a s).symm.trans executed
    rfl
  | jmp a | jrp a | ldn a | sub a | sto a | stp a =>
    obtain ⟨⟩ := executed
    rfl

/-! ### A whole step -/

/-- Every state is Halted, or Running with its next fetch outside memory or inside it. -/
theorem halted_or_runsAway_or_fetches (s : State) : s.run = false ∨ s.runsAway ∨ s.fetches := by
  cases running : s.run with
  | false => exact .inl rfl
  | true =>
    by_cases inside : 0 ≤ nextFetch s ∧ nextFetch s ≤ 31
    · exact .inr (.inr ⟨running, inside⟩)
    · exact .inr (.inl ⟨running, inside⟩)

/-- `Step` is total (R70). -/
theorem step_answers (s : State) : ∃ t, step s = .next t := by
  obtain halted | away | fetches := halted_or_runsAway_or_fetches s
  · exact ⟨s, step_of_halted halted⟩
  · exact ⟨_, step_of_runsAway away⟩
  · rw [step_of_fetches fetches]
    exact exec_answers _ _

theorem decode_of_opcodeField_eq_four {w : Word} (isFour : opcodeField w = 4) : decode w = .sub (operandField w) := by
  rw [decode, isFour]
  rfl

/-- Settles O8: the step of a fetching state is `exec` from the incremented state, and each operation's effect there is
an equation of its own. -/
theorem stepInFull : Obligations.StepInFull := by
  refine ⟨fun s => step_of_halted, fun s => step_of_runsAway, fun w isSub => ?sub, fun s fetches => ?operation⟩
  case sub =>
    obtain isFour | isFive := isSub
    · exact decode_of_opcodeField_eq_four isFour
    · exact decode_of_opcodeField_eq_five isFive
  case operation =>
    rw [step_of_fetches fetches]
    cases s.nextInstr with
    | jmp a | jrp a | ldn a | sub a | stp a => exact ⟨_, rfl, rfl⟩
    | cmp a => exact ⟨_, exec_cmp_pc a (preIncrement s), rfl⟩
    | sto a => exact ⟨_, rfl, rfl, fun b => memRead_memWrite (preIncrement s) a b s.acc⟩

/-! ### The exception -/

/-- Settles O24: `raiseRunaway` on the incremented state sets the flag and the latch and nothing else. -/
theorem runawayFaultHaltsAndKeepsTheAddress : Obligations.RunawayFaultHaltsAndKeepsTheAddress :=
  fun _ => step_of_runsAway

/-- A step leaves the latch alone, or it takes the fault. -/
theorem step_fault_cases {s t : State} (stepped : step s = .next t) :
    (¬ s.runsAway ∧ t.fault = s.fault) ∨ (s.runsAway ∧ t.fault = .runawayProgramCounter) := by
  obtain ⟨halted, rfl⟩ | ⟨away, rfl⟩ | ⟨fetches, executed⟩ := step_cases_nextInstr stepped
  · exact .inl ⟨fun away => absurd away.1 (by simp [halted]), rfl⟩
  · exact .inr ⟨away, rfl⟩
  · exact .inl ⟨fetches.not_runsAway, (exec_fault executed).trans (preIncrement_fault s)⟩

/-- The first step of `n + 1` steps, and the `n` that follow. -/
theorem stepN_succ_of_step {s t : State} (stepped : step s = .next t) (n : Nat) : stepN (n + 1) s = stepN n t := by
  simp [stepN, stepped]

/-- What every step keeps, any number of steps keeps. -/
theorem stepN_keeps {P : State → Prop} (kept : ∀ s t, P s → step s = .next t → P t) {n : Nat} {s t : State}
    (start : P s) (stepped : stepN n s = .next t) : P t := by
  induction n generalizing s with
  | zero =>
    obtain ⟨⟩ := stepped
    exact start
  | succ n ih =>
    obtain ⟨u, first⟩ := step_answers s
    rw [stepN_succ_of_step first] at stepped
    exact ih (kept s u start first) stepped

/-- Settles O23: a step leaves the latch alone or sets it. -/
theorem faultLatchChangesOnlyAsListed : Obligations.FaultLatchChangesOnlyAsListed := by
  refine ⟨fun s t stepped changed => ?set, fun s t n latched stepped => ?latched, fun _ _ => ⟨rfl, rfl, rfl⟩⟩
  case set =>
    obtain ⟨-, same⟩ | faulted := step_fault_cases stepped
    · exact absurd same changed
    · exact faulted
  case latched =>
    refine stepN_keeps (P := fun s => s.fault = .runawayProgramCounter) (fun s t latched stepped => ?_) latched stepped
    obtain ⟨-, same⟩ | ⟨-, set⟩ := step_fault_cases stepped
    · exact same.trans latched
    · exact set

theorem runsAway_iff_of_running {s : State} (running : s.run = true) :
    s.runsAway ↔ ¬ (-1 ≤ s.pc ∧ s.pc ≤ 30) := by
  simp only [State.runsAway, nextFetch, running, true_and]
  omega

theorem fetches_of_nextFetch_eq {s : State} {x : Int} (running : s.run = true) (next : nextFetch s = x)
    (inside : 0 ≤ x ∧ x ≤ 31) : s.fetches :=
  ⟨running, next ▸ inside⟩

theorem newEngine_fetches (image : Image) : (newEngine image).fetches :=
  fetches_of_nextFetch_eq (x := 0) rfl rfl (by decide)

theorem resetEngine_fetches (s : State) : (resetEngine s).fetches :=
  fetches_of_nextFetch_eq (x := 1) rfl rfl (by decide)

/-- Settles O25: `step_fault_cases` says when the fault is raised, and `PC` after each operation says when the next
fetch raises it. -/
theorem runawayIsTheOnlyExceptionAndHasTheseCauses : Obligations.RunawayIsTheOnlyExceptionAndHasTheseCauses := by
  refine ⟨fun s t stepped noFault => ?raised, fun s t stepped away => ?effect, fun i s t => exec_fault,
    fun i s t executing executed => ?causes, fun image s => ⟨?newEngine, ?reset, ?reboot⟩⟩
  case raised =>
    have outside : s.runsAway ↔ s.run = true ∧ (s.pc + 1 < 0 ∨ 31 < s.pc + 1) := by
      rw [State.runsAway, nextFetch, not_and_or, not_le, not_le]
    rw [← outside]
    obtain ⟨notAway, same⟩ | ⟨away, set⟩ := step_fault_cases stepped
    · simp [notAway, same, noFault]
    · exact iff_of_true set away
  case effect =>
    obtain ⟨⟩ := (step_of_runsAway away).symm.trans stepped
    exact ⟨rfl, rfl, rfl, rfl⟩
  case causes =>
    obtain ⟨running, -, low, high⟩ := executing
    cases i with
    | jmp a | jrp a =>
      obtain ⟨⟩ := executed
      exact runsAway_iff_of_running running
    | cmp a =>
      obtain ⟨⟩ := (exec_cmp_pc a s).symm.trans executed
      refine Iff.trans (runsAway_iff_of_running running) ?_
      dsimp only
      split <;> omega
    | ldn a | sub a | sto a =>
      obtain ⟨⟩ := executed
      refine Iff.trans (runsAway_iff_of_running running) ?_
      dsimp
      omega
    | stp a =>
      obtain ⟨⟩ := executed
      simp [State.runsAway]
  case newEngine => exact (newEngine_fetches image).not_runsAway
  case reset => exact (resetEngine_fetches s).not_runsAway
  case reboot => exact (resetEngine_fetches _).not_runsAway

end Sys2Proof.Machine
end

section
/-! PROOFS. The invariant of the reachable states (10_state.md rules R12, R21): every start meets it and every step
keeps it. -/

namespace Sys2Proof.Machine

/-! ### Starts -/

/-- In a Running state without fault, the invariant is the form of memory and the range of `PC`. -/
theorem State.Inv.of_running {s : State} (running : s.run = true) (noFault : s.fault = .none)
    (memory : s.mem.wf = true) (low : -2147483648 ≤ s.pc) (high : s.pc ≤ 2147483678) : s.Inv where
  memory := memory
  pcLow := low
  pcRunning _ := high
  pcHigh := by omega
  faultHalts latched := by simp [noFault] at latched
  faultPc latched := by simp [noFault] at latched
  stoppedAtStop stopped := absurd stopped.1 (by simp [running])

theorem newEngine_inv (image : Image) : (newEngine image).Inv :=
  .of_running rfl rfl (Memory.wf_ofImage image) (by simp [newEngine, Config.initPc])
    (by simp [newEngine, Config.initPc])

theorem resetEngine_inv {s : State} (memory : s.mem.wf = true) : (resetEngine s).Inv :=
  .of_running rfl rfl memory (by simp [resetEngine, Config.resetPc]) (by simp [resetEngine, Config.resetPc])

theorem reset_eq_newEngine : State.reset = newEngine zeroImage := rfl

/-- Settles O36: the memory of the image of zeros is the empty list. -/
theorem resetStateMeetsTheInvariant : Obligations.ResetStateMeetsTheInvariant :=
  ⟨reset_eq_newEngine, reset_eq_newEngine ▸ newEngine_inv zeroImage⟩

/-! ### One step -/

/-- A latched fault means Halted, so a Running state has none. -/
theorem State.Inv.noFault {s : State} (inv : s.Inv) (running : s.run = true) : s.fault = .none := by
  cases latch : s.fault with
  | none => rfl
  | runawayProgramCounter => exact absurd (inv.faultHalts latch) (by simp [running])

theorem exec_keeps_memory_wf {i : Instr} {s t : State} (memory : s.mem.wf = true) (executed : exec i s = .next t) :
    t.mem.wf = true := by
  obtain ⟨a, rfl, rfl⟩ | ⟨a, rfl, rfl⟩ | ⟨a, rfl, rfl⟩ | ⟨a, rfl, rfl⟩ | ⟨a, rfl, rfl⟩ | ⟨a, rfl, -, rfl⟩ |
    ⟨a, rfl, -, rfl⟩ | ⟨a, rfl, rfl⟩ := exec_cases executed
  case inr.inr.inr.inl => exact Memory.wf_set s.acc a.isLt memory
  all_goals exact memory

theorem exec_pc_cases {i : Instr} {s t : State} (executed : exec i s = .next t) :
    t.pc = s.pc ∨ t.pc = s.pc + 1 ∨ ∃ a, t.pc = operandInt s a ∨ t.pc = s.pc + operandInt s a := by
  obtain ⟨a, rfl, rfl⟩ | ⟨a, rfl, rfl⟩ | ⟨a, rfl, rfl⟩ | ⟨a, rfl, rfl⟩ | ⟨a, rfl, rfl⟩ | ⟨a, rfl, -, rfl⟩ |
    ⟨a, rfl, -, rfl⟩ | ⟨a, rfl, rfl⟩ := exec_cases executed
  · exact .inr (.inr ⟨a, .inl rfl⟩)
  · exact .inr (.inr ⟨a, .inr rfl⟩)
  case inr.inr.inr.inr.inr.inl => exact .inr (.inl rfl)
  all_goals exact .inl rfl

/-- The range that R12 gives `PC` at the start of a step: a word of memory bounds the target of a jump, and 31 and a
word that of a relative one. -/
theorem exec_pc_bounds {i : Instr} {s t : State} (low : 0 ≤ s.pc) (high : s.pc ≤ 31)
    (executed : exec i s = .next t) : -2147483648 ≤ t.pc ∧ t.pc ≤ 2147483678 := by
  obtain kept | skipped | ⟨a, jumped⟩ := exec_pc_cases executed
  · omega
  · omega
  · have word_low : -2147483648 ≤ operandInt s a := (operandWord s a).le_toInt
    have word_high : operandInt s a < 2147483648 := (operandWord s a).toInt_lt
    omega

/-- The operation of the instruction at `PC` gives a state that meets the invariant. If it stopped the engine, that
instruction is the `STP` at which the engine stands. -/
theorem State.Executing.exec_inv {s t : State} (executing : s.Executing) (memory : s.mem.wf = true)
    (executed : exec (decode (fetchWord s)) s = .next t) : t.Inv := by
  obtain ⟨running, noFault, low, high⟩ := executing
  have noFault' : t.fault = .none := (exec_fault executed).trans noFault
  have memory' := exec_keeps_memory_wf memory executed
  obtain ⟨low', high'⟩ := exec_pc_bounds low high executed
  cases running' : t.run with
  | true => exact .of_running running' noFault' memory' low' high'
  | false =>
    obtain ⟨a, isStop⟩ := (exec_clears_run_iff_stp executed running).mp running'
    rw [isStop] at executed
    obtain ⟨⟩ := executed
    exact { memory := memory', pcLow := low', pcRunning := fun _ => high', pcHigh := by omega,
            faultHalts := fun _ => rfl, faultPc := fun latched => absurd latched (by simp [noFault]),
            stoppedAtStop := fun _ => ⟨low, high, a, isStop⟩ }

theorem raiseRunaway_inv {s : State} (inv : s.Inv) (away : s.runsAway) : (raiseRunaway (preIncrement s)).Inv where
  memory := inv.memory
  pcLow := by have := inv.pcLow; simp; omega
  pcRunning running := nomatch running
  pcHigh := by have := inv.pcRunning away.1; simp; omega
  faultHalts _ := rfl
  faultPc _ := away.2
  stoppedAtStop stopped := nomatch stopped.2

/-- Settles O37: a step is nothing, the fault, or the operation of the instruction at the incremented `PC`, from a state
that is executing because a latched fault would have halted it. -/
theorem stepKeepsTheInvariant : Obligations.StepKeepsTheInvariant := by
  intro s t inv stepped
  obtain ⟨-, rfl⟩ | ⟨away, rfl⟩ | ⟨⟨running, low, high⟩, executed⟩ := step_cases_nextInstr stepped
  · exact inv
  · exact raiseRunaway_inv inv away
  · have executing : (preIncrement s).Executing := ⟨running, inv.noFault running, low, high⟩
    exact executing.exec_inv inv.memory executed

/-! ### Every command -/

theorem applyCommand_keeps_inv {c : Command} {s t : State} (inv : s.Inv) (applied : applyCommand c s = .next t) :
    t.Inv := by
  cases c with
  | step => exact stepKeepsTheInvariant s t inv applied
  | reset =>
    obtain ⟨⟩ := applied
    exact resetEngine_inv inv.memory
  | reboot image =>
    obtain ⟨⟩ := applied
    exact resetEngine_inv (Memory.wf_ofImage image)

/-- Settles O38: the invariant holds after construction and every command keeps it. -/
theorem reachableStatesMeetTheInvariant : Obligations.ReachableStatesMeetTheInvariant := by
  refine ⟨newEngine_inv, fun c s t => applyCommand_keeps_inv, fun s reachable => ?_⟩
  induction reachable with
  | newEngine image => exact newEngine_inv image
  | command c _ applied ih => exact applyCommand_keeps_inv ih applied

end Sys2Proof.Machine
end

section
/-! PROOFS. `Run` (40_step_cycle.md rules R77, R78): the fuel of `runFuel` is a number of steps, so `Run` is steps up to
a Halted state, and the invariant says in which two ways that state can be Halted. -/

namespace Sys2Proof.Machine

/-! ### Fuel and steps -/

theorem runFuel_of_halted {s : State} (halted : s.run = false) (fuel : Nat) : runFuel fuel s = some s := by
  cases fuel <;> simp [runFuel, halted]

theorem runFuel_succ_of_step {s t : State} (running : s.run = true) (stepped : step s = .next t) (fuel : Nat) :
    runFuel (fuel + 1) s = runFuel fuel t := by
  simp [runFuel, running, stepped]

theorem stepN_add {n : Nat} {s t : State} (stepped : stepN n s = .next t) (m : Nat) :
    stepN (n + m) s = stepN m t := by
  induction n generalizing s with
  | zero =>
    obtain ⟨⟩ := stepped
    rw [Nat.zero_add]
  | succ n ih =>
    obtain ⟨u, first⟩ := step_answers s
    rw [stepN_succ_of_step first] at stepped
    rw [Nat.add_right_comm, stepN_succ_of_step first, ih stepped]

theorem stepN_of_runFuel {fuel : Nat} {s t : State} (returned : runFuel fuel s = some t) :
    t.run = false ∧ ∃ n, stepN n s = .next t := by
  induction fuel generalizing s with
  | zero =>
    cases running : s.run with
    | true => simp [runFuel, running] at returned
    | false =>
      rw [runFuel_of_halted running] at returned
      obtain ⟨⟩ := returned
      exact ⟨running, 0, rfl⟩
  | succ fuel ih =>
    cases running : s.run with
    | true =>
      obtain ⟨u, first⟩ := step_answers s
      rw [runFuel_succ_of_step running first] at returned
      obtain ⟨halted, n, stepped⟩ := ih returned
      exact ⟨halted, n + 1, (stepN_succ_of_step first n).trans stepped⟩
    | false =>
      rw [runFuel_of_halted running] at returned
      obtain ⟨⟩ := returned
      exact ⟨running, 0, rfl⟩

theorem runFuel_of_stepN {n : Nat} {s t : State} (halted : t.run = false) (stepped : stepN n s = .next t) :
    runFuel n s = some t := by
  induction n generalizing s with
  | zero =>
    obtain ⟨⟩ := stepped
    exact runFuel_of_halted halted 0
  | succ n ih =>
    cases running : s.run with
    | true =>
      obtain ⟨u, first⟩ := step_answers s
      rw [stepN_succ_of_step first] at stepped
      rw [runFuel_succ_of_step running first, ih stepped]
    | false =>
      obtain ⟨⟩ := (stepN_of_halted running (n + 1)).symm.trans stepped
      exact runFuel_of_halted running (n + 1)

theorem runsTo_iff {s t : State} : RunsTo s t ↔ t.run = false ∧ ∃ n, stepN n s = .next t :=
  ⟨fun ⟨_, returned⟩ => stepN_of_runFuel returned, fun ⟨halted, n, stepped⟩ => ⟨n, runFuel_of_stepN halted stepped⟩⟩

/-! ### The result of `Run` -/

theorem runsTo_of_halted_iff {s t : State} (halted : s.run = false) : RunsTo s t ↔ t = s := by
  constructor
  · rintro ⟨fuel, returned⟩
    exact Option.some.inj (returned.symm.trans (runFuel_of_halted halted fuel))
  · rintro rfl
    exact runsTo_of_halted halted

/-- The state reached by the fewer steps is Halted, so the further steps keep it. -/
theorem eq_of_halted_of_stepN_le {n m : Nat} {s t u : State} (le : n ≤ m) (halted : t.run = false)
    (toT : stepN n s = .next t) (toU : stepN m s = .next u) : t = u := by
  obtain ⟨k, rfl⟩ := Nat.exists_eq_add_of_le le
  rw [stepN_add toT, stepN_of_halted halted] at toU
  exact Host.Outcome.next.inj toU

theorem runsTo_unique {s t u : State} (toT : RunsTo s t) (toU : RunsTo s u) : t = u := by
  obtain ⟨haltedT, n, stepsT⟩ := runsTo_iff.mp toT
  obtain ⟨haltedU, m, stepsU⟩ := runsTo_iff.mp toU
  obtain le | le := Nat.le_total n m
  · exact eq_of_halted_of_stepN_le le haltedT stepsT stepsU
  · exact (eq_of_halted_of_stepN_le le haltedU stepsU stepsT).symm

/-- Settles O39: fuel counts steps, and a Halted state keeps itself. -/
theorem runIsTheClosureOfStepToAHaltedState : Obligations.RunIsTheClosureOfStepToAHaltedState :=
  ⟨fun _ _ returns => (runsTo_iff.mp returns).1, fun _ _ => runsTo_of_halted_iff, fun _ _ _ => runsTo_unique,
    fun _ _ => runsTo_iff⟩

theorem State.Inv.of_runsTo {s t : State} (inv : s.Inv) (returns : RunsTo s t) : t.Inv := by
  obtain ⟨-, n, stepped⟩ := runsTo_iff.mp returns
  exact stepN_keeps stepKeepsTheInvariant inv stepped

/-- Settles O40: a result of `Run` is Halted and meets the invariant, which names `PC` for either value of the latch. -/
theorem runEndsStoppedAtAStopOrFaultedAtABadAddress : Obligations.RunEndsStoppedAtAStopOrFaultedAtABadAddress := by
  intro s t inv returns
  have inv' := inv.of_runsTo returns
  have halted : t.run = false := (runsTo_iff.mp returns).1
  cases latch : t.fault with
  | none =>
    obtain ⟨low, high, isStop⟩ := inv'.stoppedAtStop ⟨halted, latch⟩
    exact .inl ⟨⟨halted, latch⟩, by simp [State.faulted, latch], low, high, isStop⟩
  | runawayProgramCounter =>
    have outside := inv'.faultPc latch
    exact .inr ⟨⟨halted, latch⟩, by simp [State.stopped, latch], by omega⟩

/-- Settles O41: at a fixed point every number of steps gives the Running state back, and a result would be Halted. -/
theorem oneInstructionLoopNeverReturns : Obligations.OneInstructionLoopNeverReturns := by
  refine ⟨step_answers, fun s running fixed => ?_⟩
  have loops (n : Nat) : stepN n s = .next s := by
    induction n with
    | zero => rfl
    | succ n ih => rw [stepN_succ_of_step fixed, ih]
  refine ⟨loops, fun t returns => ?_⟩
  obtain ⟨halted, n, stepped⟩ := runsTo_iff.mp returns
  obtain ⟨⟩ := (loops n).symm.trans stepped
  exact absurd running (by simp [halted])

end Sys2Proof.Machine
end

section
/-! PROOFS. The three starts (70_reset_and_hazards.md rules R160 to R164): where each goes on, and when two of them run
the same program. -/

namespace Sys2Proof.Machine

theorem memRead_newEngine (image : Image) (a : Addr) : memRead (newEngine image) a = Image.get image a :=
  Memory.get_ofImage image a

/-- Settles O31: the constructed engine is Running with `PC` -1. -/
theorem newEngineStartsBeforeAddressZero : Obligations.NewEngineStartsBeforeAddressZero :=
  fun image => ⟨rfl, rfl, rfl, rfl, memRead_newEngine image, continuesAt_of_nextFetch_eq rfl rfl⟩

/-- Settles O32: a reset engine is Running with `PC` 0. -/
theorem resetKeepsMemory : Obligations.ResetKeepsMemory :=
  fun _ => ⟨rfl, rfl, rfl, rfl, fun _ => rfl, continuesAt_of_nextFetch_eq rfl rfl⟩

/-- The word 0 is `JMP 0`, which reads itself and leaves `PC` 0. -/
theorem step_newEngine_of_zero_word {image : Image} (zeroWord : Image.get image 0 = 0) :
    step (newEngine image) = .next (resetEngine (newEngine image)) := by
  have word : memRead (newEngine image) 0 = 0 := (memRead_newEngine image 0).trans zeroWord
  have isJump : (newEngine image).nextInstr = .jmp 0 := by
    rw [nextInstr_of_nextFetch_eq (a := 0) rfl, word]
    rfl
  have target : operandInt (preIncrement (newEngine image)) 0 = 0 := by
    rw [operandInt_eq, memRead_preIncrement, word]
    rfl
  rw [step_of_fetches (newEngine_fetches image), isJump, exec_jmp, target]
  rfl

/-- Settles O35: after that first step the two runs are one. -/
theorem constructedEngineJoinsResetAfterAZeroWord : Obligations.ConstructedEngineJoinsResetAfterAZeroWord :=
  fun _ zeroWord => ⟨step_newEngine_of_zero_word zeroWord, stepN_succ_of_step (step_newEngine_of_zero_word zeroWord)⟩

end Sys2Proof.Machine
end

section
/-! PROOFS. Wrapping and the words of the remaining instructions (00_scope.md section 6, 41_jumps_and_skip.md rule R81,
42_accumulator_and_store.md rules R90, R94): `wrap32` is the one word in a congruence class, so its integer value is
known wherever a representative in range is. -/

namespace Sys2Proof

theorem dvd_wrap32_toInt_sub (v : Int) : (4294967296 : Int) ∣ (wrap32 v).toInt - v := by
  rw [wrap32, BitVec.toInt_ofInt]
  exact Int.dvd_bmod_sub_self

theorem eq_wrap32_of_dvd {v : Int} {w : Word} (congruent : (4294967296 : Int) ∣ w.toInt - v) : w = wrap32 v :=
  BitVec.toInt_inj.mp (wrap32_toInt_of_dvd w.le_toInt w.toInt_lt congruent).symm

theorem encode_jrp_toInt (a : Addr) : (encode (.jrp a)).toInt = 8192 + a.toNat := by
  have formula := encode_toInt (.jrp a)
  rw [codeOf, Instr.operand] at formula
  omega

theorem encode_ldn_toInt (a : Addr) : (encode (.ldn a)).toInt = 16384 + a.toNat := by
  have formula := encode_toInt (.ldn a)
  rw [codeOf, Instr.operand] at formula
  omega

namespace Machine

theorem subtractWrap_eq_sub (x y : Word) : subtractWrap x y = x - y := by
  rw [subtractWrap, wrap32, Int.sub_eq_add_neg, BitVec.ofInt_add, BitVec.ofInt_neg, BitVec.ofInt_toInt,
    BitVec.ofInt_toInt, BitVec.sub_eq_add_neg]

theorem negateWrap_eq_neg (x : Word) : negateWrap x = -x := by
  rw [negateWrap, wrap32, Int.zero_sub, BitVec.ofInt_neg, BitVec.ofInt_toInt]

/-- Settles O29: two congruent integers in the signed range are equal, and wrapping is a homomorphism. -/
theorem wrapIsTheUniqueCongruentWord : Obligations.WrapIsTheUniqueCongruentWord :=
  ⟨dvd_wrap32_toInt_sub, fun _ _ => eq_wrap32_of_dvd, subtractWrap_eq_sub, negateWrap_eq_neg⟩

/-- Settles O11: the sum is exact because `PC` is an integer, and execution goes on at its increment. -/
theorem relativeJumpAddsTheWordNamedExactly : Obligations.RelativeJumpAddsTheWordNamedExactly := by
  refine fun a s => ⟨rfl, encode_jrp_toInt a, fun running => continuesAt_of_nextFetch_eq running rfl,
    fun readsItself atItself => ?itself⟩
  case itself =>
    rw [exec_jrp, operandInt_eq, readsItself, encode_jrp_toInt, ← atItself, ← Int.add_assoc, setPc]

/-- Settles O13: the negation of a word is in range but for the most negative one, which 2^32 brings back to itself. -/
theorem loadNegativeNegatesTheWordNamed : Obligations.LoadNegativeNegatesTheWordNamed := by
  intro a s
  have low := (memRead s a).le_toInt
  have high := (memRead s a).toInt_lt
  have exact_of_ne (ne : (memRead s a).toInt ≠ -2147483648) :
      (wrap32 (0 - (memRead s a).toInt)).toInt = -(memRead s a).toInt :=
    wrap32_toInt_of_dvd (by omega) (by omega) (by omega)
  refine ⟨wrap32 (0 - (memRead s a).toInt), rfl, rfl, exact_of_ne, fun least => ?least, encode_ldn_toInt a,
    fun loadsItself => ?itself⟩
  case least => exact wrap32_toInt_of_dvd (by omega) (by omega) (by omega)
  case itself =>
    have word : (memRead s a).toInt = 16384 + a.toNat := loadsItself ▸ encode_ldn_toInt a
    rw [← word]
    exact exact_of_ne (by omega)

/-- Settles O28: `CMP` tests the sign of the word that `SUB` left, and `subtractWrapsSilently` gives that word in each
range of the exact difference. -/
theorem compareAfterSubtractTestsTheWrappedDifference : Obligations.CompareAfterSubtractTestsTheWrappedDifference := by
  intro s t u a b subtracted compared
  obtain ⟨v, subtracts, -, above, below, within, -⟩ := subtractWrapsSilently.1 a s
  obtain ⟨⟩ := subtracts.symm.trans subtracted
  obtain ⟨⟩ := (exec_cmp_pc b _).symm.trans compared
  have skips_iff : (if v.toInt < 0 then s.pc + 1 else s.pc) = s.pc + 1 ↔ v.toInt < 0 := by
    split <;> simp [*]
  have acc_low := s.acc.le_toInt
  have acc_high := s.acc.toInt_lt
  have word_low := (memRead s a).le_toInt
  have word_high := (memRead s a).toInt_lt
  refine skips_iff.trans ?_
  omega

end Machine

end Sys2Proof
end

section
/-! PROOFS. The canonical form of memory (notes/assumptions/1.md): a memory lists exactly its words that are not 0, in
order, so its words determine it. -/

namespace Sys2Proof.Machine

/-- A canonical memory lists nothing below its bound. -/
theorem Memory.get_of_lt_of_wfFrom {lo a : Nat} {m : Memory} (wf : Memory.wfFrom lo m = true) (below : a < lo) :
    Memory.get m a = unlistedWord := by
  induction m generalizing lo with
  | nil => rfl
  | cons c m ih =>
    obtain ⟨k, w⟩ := c
    obtain ⟨le, -, -, tail⟩ := Memory.wfFrom_cons.mp wf
    rw [Memory.get_cons, if_neg (by omega), ih tail (by omega)]

/-- At the first listed address, where a memory with a higher bound reads as 0. -/
theorem Memory.get_head_ne {lo k : Nat} {w : Word} {m m' : Memory} (notZero : w ≠ unlistedWord)
    (wf : Memory.wfFrom lo m' = true) (below : k < lo) : Memory.get ((k, w) :: m) k ≠ Memory.get m' k := by
  rwa [Memory.get_cons, if_pos rfl, Memory.get_of_lt_of_wfFrom wf below]

/-- Two memories that agree, without their entries for the same first address. -/
theorem Memory.get_tail_eq {k : Nat} {w w' : Word} {m m' : Memory} (wf : Memory.wfFrom (k + 1) m = true)
    (wf' : Memory.wfFrom (k + 1) m' = true) {a : Nat}
    (agree : Memory.get ((k, w) :: m) a = Memory.get ((k, w') :: m') a) : Memory.get m a = Memory.get m' a := by
  by_cases isHead : k = a
  · have below : a < k + 1 := by omega
    rw [Memory.get_of_lt_of_wfFrom wf below, Memory.get_of_lt_of_wfFrom wf' below]
  · rwa [Memory.get_cons, Memory.get_cons, if_neg isHead, if_neg isHead] at agree

theorem Memory.eq_of_get_eq {lo lo' : Nat} {m m' : Memory} (wf : Memory.wfFrom lo m = true)
    (wf' : Memory.wfFrom lo' m' = true) (agree : ∀ a < 32, Memory.get m a = Memory.get m' a) : m = m' := by
  induction m generalizing lo lo' m' with
  | nil =>
    cases m' with
    | nil => rfl
    | cons c' m' =>
      obtain ⟨k', w'⟩ := c'
      obtain ⟨-, inRange', notZero', -⟩ := Memory.wfFrom_cons.mp wf'
      have nil_wf : Memory.wfFrom (k' + 1) [] = true := rfl
      exact absurd (agree k' inRange').symm (Memory.get_head_ne notZero' nil_wf k'.lt_succ_self)
  | cons c m ih =>
    obtain ⟨k, w⟩ := c
    obtain ⟨-, inRange, notZero, tail⟩ := Memory.wfFrom_cons.mp wf
    cases m' with
    | nil =>
      have nil_wf : Memory.wfFrom (k + 1) [] = true := rfl
      exact absurd (agree k inRange) (Memory.get_head_ne notZero nil_wf k.lt_succ_self)
    | cons c' m' =>
      obtain ⟨k', w'⟩ := c'
      obtain ⟨-, inRange', notZero', tail'⟩ := Memory.wfFrom_cons.mp wf'
      obtain less | rfl | greater := Nat.lt_trichotomy k k'
      · have higher := Memory.wfFrom_cons.mpr ⟨Nat.le_refl k', inRange', notZero', tail'⟩
        exact absurd (agree k inRange) (Memory.get_head_ne notZero higher less)
      · have sameWord : w = w' := by simpa [Memory.get_cons] using agree k inRange
        have sameTail : m = m' := ih tail tail' fun a ha => Memory.get_tail_eq tail tail' (agree a ha)
        rw [sameWord, sameTail]
      · have higher := Memory.wfFrom_cons.mpr ⟨Nat.le_refl k, inRange, notZero, tail⟩
        exact absurd (agree k' inRange').symm (Memory.get_head_ne notZero' higher greater)

theorem Memory.eq_of_wf_of_get_eq {m m' : Memory} (wf : m.wf = true) (wf' : m'.wf = true)
    (agree : ∀ a : Addr, Memory.get m a.toNat = Memory.get m' a.toNat) : m = m' :=
  Memory.eq_of_get_eq wf wf' fun a ha => agree (BitVec.ofNatLT a ha)

theorem Memory.set_get_self {m : Memory} (wf : m.wf = true) (a : Addr) :
    Memory.set m a.toNat (Memory.get m a.toNat) = m := by
  refine Memory.eq_of_wf_of_get_eq (Memory.wf_set _ a.isLt wf) wf fun b => ?_
  rw [Memory.get_set]
  split
  · next same => rw [same]
  · rfl

/-- Settles O30: a write keeps the canonical form and, when it writes what it finds, every word. -/
theorem canonicalMemoryIsDeterminedByItsWords : Obligations.CanonicalMemoryIsDeterminedByItsWords := by
  refine ⟨fun m m' => Memory.eq_of_wf_of_get_eq, fun s a wf => ?_⟩
  exact State.eq_of_fields rfl rfl rfl rfl (Memory.set_get_self wf a)

end Sys2Proof.Machine
end

section
/-! PROOFS. Placing a word where the next step fetches (notes/assumptions/4.md): the state is first made ready to fetch,
and what is then fetched is the word just written. -/

namespace Sys2Proof.Machine

theorem readyToFetch_of_fetches {s : State} (fetches : s.fetches) : readyToFetch s = s := by
  obtain ⟨running, inside⟩ := fetches
  simp [readyToFetch, running, (fetchInBounds_iff (preIncrement s)).mpr inside]

theorem readyToFetch_of_runsAway {s : State} (away : s.runsAway) : readyToFetch s = setPc Config.initPc s := by
  obtain ⟨running, outside⟩ := away
  have checkFails : ¬ fetchInBounds (preIncrement s) = true := mt (fetchInBounds_iff (preIncrement s)).mp outside
  simp [readyToFetch, running, checkFails]

theorem readyToFetch_of_halted {s : State} (halted : s.run = false) :
    readyToFetch s = readyToFetch (setFault .none (setRun true s)) := by
  simp [readyToFetch, halted]

theorem setPc_initPc_fetches {s : State} (running : s.run = true) : (setPc Config.initPc s).fetches :=
  fetches_of_nextFetch_eq (x := 0) running rfl (by decide)

theorem readyToFetch_of_running {s : State} (running : s.run = true) :
    (readyToFetch s).fetches ∧ (readyToFetch s).acc = s.acc := by
  obtain halted | away | fetches := halted_or_runsAway_or_fetches s
  · exact absurd running (by simp [halted])
  · rw [readyToFetch_of_runsAway away]
    exact ⟨setPc_initPc_fetches running, rfl⟩
  · rw [readyToFetch_of_fetches fetches]
    exact ⟨fetches, rfl⟩

/-- The state made ready fetches, and its accumulator is the old one. -/
theorem readyToFetch_ready (s : State) : (readyToFetch s).fetches ∧ (readyToFetch s).acc = s.acc := by
  cases running : s.run with
  | true => exact readyToFetch_of_running running
  | false =>
    rw [readyToFetch_of_halted running]
    exact readyToFetch_of_running (s := setFault .none (setRun true s)) rfl

/-- The address of the next fetch, where the word is placed. -/
def fetchTarget (s : State) : Addr := BitVec.ofInt 5 (nextFetch s)

theorem placeFetchWord_eq (w : Word) (s : State) :
    placeFetchWord w s = memWrite (fetchTarget (readyToFetch s)) w (readyToFetch s) := rfl

theorem nextInstr_memWrite_fetchTarget (w : Word) (s : State) :
    (memWrite (fetchTarget s) w s).nextInstr = decode w := by
  have read : memRead (memWrite (fetchTarget s) w s) (fetchTarget s) = w := by rw [memRead_memWrite, if_pos rfl]
  exact congrArg decode read

theorem withFetchWord_eq (s : State) (n : Nat) : s.withFetchWord 32 n = placeFetchWord (BitVec.ofNat 32 n) s := by
  have word : tableWord 32 n = BitVec.ofNat 32 n :=
    BitVec.eq_of_toNat_eq (by rw [tableWord, BitVec.toNat_ofNat, BitVec.toNat_ofNat, Nat.mod_mod])
  rw [State.withFetchWord, word]

/-- The step after a word is placed is its instruction, at the incremented `PC`. -/
theorem step_placeFetchWord (w : Word) (s : State) :
    step (placeFetchWord w s) = exec (decode w) (preIncrement (placeFetchWord w s)) := by
  have fetches : (placeFetchWord w s).fetches := (readyToFetch_ready s).1
  rw [step_of_fetches fetches, placeFetchWord_eq, nextInstr_memWrite_fetchTarget]

/-- Settles O9: the word is written at the address of the next fetch of a state that fetches, which is the state itself
where that one fetches. -/
theorem placedWordIsWhatTheNextStepRuns : Obligations.PlacedWordIsWhatTheNextStepRuns := by
  intro s n
  rw [withFetchWord_eq]
  refine ⟨?runs, fun fetches => ?onlyThere⟩
  case runs =>
    obtain ⟨⟨running, low, high⟩, sameAcc⟩ := readyToFetch_ready s
    exact ⟨preIncrement (placeFetchWord (BitVec.ofNat 32 n) s), running, low, high, sameAcc, step_placeFetchWord _ s⟩
  case onlyThere =>
    rw [placeFetchWord_eq, readyToFetch_of_fetches fetches]
    exact ⟨rfl, fun b => memRead_memWrite s _ b _⟩

end Sys2Proof.Machine
end

section
/-! PROOFS. The tokens of a source line (45_program_loader.md rules R112, R114, R117, R118, R121; 30_encoding.md rule
R57): where a line is cut, and which tokens are numbers, addresses and words. -/

namespace Sys2Proof.Machine

/-! ### Cutting -/

/-- Settles O43: a line with a colon splits before its first one. -/
theorem colonSelectsTheGrammar : Obligations.ColonSelectsTheGrammar := by
  refine ⟨fun pre post noColon => parseLine_of_colon noColon post, fun line => parseLine_of_no_colon,
    fun line _ => ⟨?cut, ?uncut⟩⟩
  case cut =>
    rintro ⟨_, colon, rfl⟩
    obtain ⟨pre, post, rfl, notInPre⟩ := List.eq_append_cons_of_mem colon
    exact ⟨_, cutAtColon?_append (fun _ inPre isColon => notInPre (isColon ▸ inPre)) post⟩
  case uncut =>
    rintro ⟨p, cut⟩
    by_contra noColon
    rw [cutAtColon?_eq_none fun c hc isColon => noColon ⟨c, hc, isColon⟩] at cut
    cases cut

theorem tokens_cons_space (l : Line) : tokens (' ' :: l) = ([], (tokens l).1 :: (tokens l).2) := by
  simp [tokens]

theorem tokens_cons_of_ne {c : Char} (notSpace : c ≠ ' ') (l : Line) :
    tokens (c :: l) = (c :: (tokens l).1, (tokens l).2) := by
  simp [tokens, notSpace]

/-- Settles O46: a space starts a token, and every other character goes to the front of the first one. -/
theorem tokensAreCutAtEverySpace : Obligations.TokensAreCutAtEverySpace := by
  intro line
  induction line with
  | nil => simp [tokens]
  | cons c l ih =>
    obtain ⟨count, joined, noSpace⟩ := ih
    by_cases space : c = ' '
    · subst space
      rw [tokens_cons_space]
      refine ⟨by simp [count], ?_, List.forall_mem_cons.mpr ⟨List.forall_mem_nil _, noSpace⟩⟩
      rw [List.flatMap_cons, List.nil_append, List.cons_append, joined]
    · rw [tokens_cons_of_ne space]
      obtain ⟨first, others⟩ := List.forall_mem_cons.mp noSpace
      refine ⟨?_, congrArg (c :: ·) joined,
        List.forall_mem_cons.mpr ⟨List.forall_mem_cons.mpr ⟨space, first⟩, others⟩⟩
      rw [count, List.count_cons_of_ne space]

/-! ### Numbers -/

theorem digitsValue?_cons_of_digit {c : Char} (digit : 48 ≤ c.toNat ∧ c.toNat ≤ 57) (acc : Nat) (t : List Char) :
    digitsValue? acc (c :: t) = digitsValue? (acc * 10 + (c.toNat - 48)) t := by
  simp [digitsValue?, digitValue?, digit]

/-- The loop over the digits is a fold, where all of them are digits. -/
theorem digitsValue?_of_digits {t : List Char} (digits : ∀ c ∈ t, 48 ≤ c.toNat ∧ c.toNat ≤ 57) (acc : Nat) :
    digitsValue? acc t = some (t.foldl (fun v c => v * 10 + (c.toNat - 48)) acc) := by
  induction t generalizing acc with
  | nil => rfl
  | cons c t ih =>
    obtain ⟨head, tail⟩ := List.forall_mem_cons.mp digits
    rw [digitsValue?_cons_of_digit head, ih tail, List.foldl_cons]

theorem numberToken?_of_ne_nil {t : List Char} (notEmpty : t ≠ []) : numberToken? t = digitsValue? 0 t := by
  cases t with
  | nil => exact absurd rfl notEmpty
  | cons c t => rfl

theorem numberToken?_eq_some_iff {t : List Char} {n : Nat} :
    numberToken? t = some n ↔
      t ≠ [] ∧ (∀ c ∈ t, 48 ≤ c.toNat ∧ c.toNat ≤ 57) ∧ n = t.foldl (fun v c => v * 10 + (c.toNat - 48)) 0 := by
  constructor
  · intro isNumber
    have notEmpty : t ≠ [] := by rintro rfl; cases isNumber
    rw [numberToken?_of_ne_nil notEmpty] at isNumber
    have digits := digits_of_digitsValue? isNumber
    rw [digitsValue?_of_digits digits] at isNumber
    exact ⟨notEmpty, digits, (Option.some.inj isNumber).symm⟩
  · rintro ⟨notEmpty, digits, rfl⟩
    rw [numberToken?_of_ne_nil notEmpty, digitsValue?_of_digits digits]

theorem addrInRange_natCast (n : Nat) : addrInRange n = decide (n < 32) := by
  simp [addrInRange]

theorem addrOfNat?_eq_some_iff {n : Nat} {a : Addr} : addrOfNat? n = some a ↔ n = a.toNat := by
  simp only [addrOfNat?, addrInRange_natCast, decide_eq_true_eq, Option.ite_none_right_eq_some, Option.some.injEq]
  constructor
  · rintro ⟨inRange, rfl⟩
    rw [BitVec.toNat_ofNat, Nat.mod_eq_of_lt inRange]
  · rintro rfl
    exact ⟨a.isLt, by rw [BitVec.ofNat_toNat, BitVec.setWidth_eq]⟩

theorem addressToken?_eq_some_iff {t : List Char} {a : Addr} :
    addressToken? t = some a ↔ numberToken? t = some a.toNat := by
  simp [addressToken?, Option.bind_eq_some_iff, addrOfNat?_eq_some_iff]

theorem addressToken?_leading_zero {t : List Char} {a : Addr} (isAddr : addressToken? t = some a) :
    addressToken? ('0' :: t) = some a := by
  have notEmpty : t ≠ [] := by rintro rfl; cases isAddr
  have sameNumber : numberToken? ('0' :: t) = numberToken? t := by
    rw [numberToken?_of_ne_nil notEmpty, numberToken?_of_ne_nil (List.cons_ne_nil _ _),
      digitsValue?_cons_of_digit (by decide)]
    rfl
  rw [addressToken?_eq_some_iff] at isAddr ⊢
  exact sameNumber.trans isAddr

/-- Settles O45: the digits' loop is the decimal fold, and a leading zero adds nothing to it. -/
theorem numberTokensAreDecimalDigits : Obligations.NumberTokensAreDecimalDigits :=
  ⟨fun _ _ => numberToken?_eq_some_iff, fun _ _ => addressToken?_eq_some_iff, fun _ _ => addressToken?_leading_zero⟩

/-- The decimal text of a number is a token of it. -/
theorem numberToken?_decimal (n : Nat) : numberToken? (decimal n) = some n := by
  refine numberToken?_eq_some_iff.mpr ⟨Nat.toDigits_ne_nil, fun c hc => ?digits, ?value⟩
  case digits => exact Char.isDigit_iff_toNat.mp (Nat.isDigit_of_mem_toDigits (by decide) (by decide) hc)
  case value =>
    have value : Nat.ofDigitChars 10 (decimal n) 0 = n := Nat.ofDigitChars_toDigits (by decide) (by decide)
    have zero : '0'.toNat = 48 := rfl
    simpa only [Nat.ofDigitChars, Nat.mul_comm 10, zero] using value.symm

theorem addressToken?_decimal (a : Addr) : addressToken? (decimal a.toNat) = some a :=
  addressToken?_eq_some_iff.mpr (numberToken?_decimal a.toNat)

/-! ### Bits -/

theorem bitValue?_eq_none_iff {c : Char} : bitValue? c = none ↔ c ≠ '0' ∧ c ≠ '1' := by
  by_cases zero : c = '0' <;> by_cases one : c = '1' <;> simp [bitValue?, zero, one]

@[simp] theorem bitValue?_bitChar (b : Bool) : bitValue? (bitChar b) = some b.toNat := by
  cases b <;> rfl

theorem bitsValue?_eq_none_iff {t : List Char} : bitsValue? t = none ↔ ∃ c ∈ t, c ≠ '0' ∧ c ≠ '1' := by
  induction t with
  | nil => simp [bitsValue?]
  | cons c t ih =>
    rw [List.exists_mem_cons_iff, ← ih, ← bitValue?_eq_none_iff, bitsValue?]
    cases bitValue? c <;> simp

theorem bitToken?_eq_none_iff {t : List Char} :
    bitToken? t = none ↔ t.length ≠ 32 ∨ ∃ c ∈ t, c ≠ '0' ∧ c ≠ '1' := by
  rw [← bitsValue?_eq_none_iff, bitToken?]
  by_cases length : t.length = 32
  · cases bitsValue? t <;> simp [length]
  · simp [length]

/-- The `n` low bits of a number, bit 0 first. -/
def lowBits (x n : Nat) : List Char := (List.range n).map fun i => bitChar (x.testBit i)

theorem lowBits_succ (x n : Nat) : lowBits x (n + 1) = bitChar (x.testBit 0) :: lowBits (x / 2) n := by
  simp [lowBits, List.range_succ_eq_map, Nat.testBit_succ]

theorem bitsValue?_lowBits (x n : Nat) : bitsValue? (lowBits x n) = some (x % 2 ^ n) := by
  induction n generalizing x with
  | zero => simp [lowBits, bitsValue?, Nat.mod_one]
  | succ n ih =>
    have bit : (x.testBit 0).toNat = x % 2 := by simpa using Nat.toNat_testBit x 0
    have split : x % 2 ^ (n + 1) = x % 2 + 2 * (x / 2 % 2 ^ n) := by rw [Nat.pow_succ', Nat.mod_mul]
    rw [lowBits_succ, bitsValue?, bitValue?_bitChar, ih, bit, split]
    rfl

theorem bitString_eq_lowBits (w : Word) : bitString w = lowBits w.toNat 32 := rfl

theorem bitToken?_bitString (w : Word) : bitToken? (bitString w) = some w := by
  have length : (bitString w).length = 32 := by simp [bitString]
  have value : bitsValue? (bitString w) = some w.toNat := by
    rw [bitString_eq_lowBits, bitsValue?_lowBits, Nat.mod_eq_of_lt w.isLt]
  rw [bitToken?, if_pos length, value]
  exact congrArg some (wrap32_toNat w)

/-- Settles O49: after an address token and a colon, the line is what its bit token is. -/
theorem binaryLineDefinesEveryWord : Obligations.BinaryLineDefinesEveryWord := by
  refine ⟨fun addrTok addr w isAddr => ?defines, fun addrTok bits addr isAddr bad => ?refused⟩
  case defines =>
    rw [parseLine_of_colon (no_colon_of_addressToken? isAddr), parseBinary, isAddr, bitToken?_bitString]
  case refused =>
    rw [parseLine_of_colon (no_colon_of_addressToken? isAddr), parseBinary, isAddr, bitToken?_eq_none_iff.mpr bad]

/-! ### Rendered instructions -/

/-- The mnemonic of an instruction whose operand is shown is an operand-taking one, and names it. -/
theorem operandInstr?_mnemonic {i : Instr} (shows : showsOperand i = true) :
    ∃ mk, operandInstr? (mnemonic i) = some mk ∧ mk i.operand = i := by
  cases i with
  | jmp a => exact ⟨.jmp, rfl, rfl⟩
  | jrp a => exact ⟨.jrp, rfl, rfl⟩
  | ldn a => exact ⟨.ldn, rfl, rfl⟩
  | sto a => exact ⟨.sto, rfl, rfl⟩
  | sub a => exact ⟨.sub, rfl, rfl⟩
  | cmp a => cases shows
  | stp a => cases shows

/-- The other two name an instruction with operand 0, the only one of theirs that source text can write (R58). -/
theorem bareInstr?_mnemonic {i : Instr} (isSource : i.sourceForm = true) (hides : showsOperand i = false) :
    bareInstr? (mnemonic i) = some i := by
  cases i with
  | jmp a | jrp a | ldn a | sto a | sub a => cases hides
  | cmp a | stp a =>
    obtain rfl : a = 0 := by simpa [Instr.sourceForm] using isSource
    rfl

/-- Settles O50: the decimal texts are address tokens, and the mnemonic is that of the instruction. -/
theorem renderedInstructionAssemblesToItsWord : Obligations.RenderedInstructionAssemblesToItsWord := by
  intro addr i isSource
  have isAddr := addressToken?_decimal addr
  rw [renderChars]
  split
  · next shows =>
    obtain ⟨mk, isMnemonic, named⟩ := operandInstr?_mnemonic shows
    obtain ⟨notBare, plain⟩ := plain_of_operandInstr? isMnemonic
    rw [parseLine_operandInstr isAddr (addressToken?_decimal i.operand) plain notBare isMnemonic, named]
  · next hides =>
    have isMnemonic := bareInstr?_mnemonic isSource (Bool.eq_false_iff.mpr hides)
    exact parseLine_bareInstr isAddr (plain_of_bareInstr? isMnemonic) isMnemonic

end Sys2Proof.Machine
end

section
/-! PROOFS. The error kinds of the line parser (45_program_loader.md rules R113, R118 to R123): which checks a refused
line passes and which one it fails, grammar by grammar. -/

namespace Sys2Proof.Machine

/-! ### The three classes of mnemonic -/

/-- The mnemonics that take one operand (R115, R116). -/
def operandMnemonics : List (List Char) :=
  [['J', 'M', 'P'], ['J', 'R', 'P'], ['L', 'D', 'N'], ['S', 'T', 'O'], ['S', 'U', 'B'], ['N', 'U', 'M']]

/-- The mnemonics that take none (R115). -/
def bareMnemonics : List (List Char) := [['C', 'M', 'P'], ['S', 'T', 'P']]

theorem mem_bareMnemonics_iff {m : List Char} : m ∈ bareMnemonics ↔ ∃ i, bareInstr? m = some i :=
  (bareInstr?_isSome m).symm.trans Option.isSome_iff_exists

theorem mem_operandMnemonics_iff {m : List Char} : m ∈ operandMnemonics ↔ ∃ mk, operandInstr? m = some mk :=
  (operandInstr?_isSome m).symm.trans Option.isSome_iff_exists

theorem bareInstr?_eq_none_of_not_mem {m : List Char} (notBare : m ∉ bareMnemonics) : bareInstr? m = none :=
  Option.eq_none_iff_forall_ne_some.mpr fun i isBare => notBare (mem_bareMnemonics_iff.mpr ⟨i, isBare⟩)

theorem operandInstr?_eq_none_of_not_mem {m : List Char} (notOperand : m ∉ operandMnemonics) :
    operandInstr? m = none :=
  Option.eq_none_iff_forall_ne_some.mpr fun mk isOperand => notOperand (mem_operandMnemonics_iff.mpr ⟨mk, isOperand⟩)

theorem parseInstr_bare_end (addr : Addr) {m : List Char} (isBare : m ∈ bareMnemonics) :
    ∃ i, parseInstr addr [m] = .ok addr (encode i) := by
  obtain ⟨i, isMnemonic⟩ := mem_bareMnemonics_iff.mp isBare
  exact ⟨i, by simp [parseInstr, isMnemonic]⟩

theorem parseInstr_bare_operands (addr : Addr) {m : List Char} {operands : List (List Char)}
    (isBare : m ∈ bareMnemonics) (more : operands ≠ []) : parseInstr addr (m :: operands) = .err .extraOperand := by
  obtain ⟨i, isMnemonic⟩ := mem_bareMnemonics_iff.mp isBare
  simp [parseInstr, isMnemonic, more]

theorem parseInstr_operandMnemonic (addr : Addr) {m : List Char} (isOperand : m ∈ operandMnemonics) :
    ∃ mk, ∀ operands, parseInstr addr (m :: operands) = parseOperands addr mk operands := by
  obtain ⟨mk, isMnemonic⟩ := mem_operandMnemonics_iff.mp isOperand
  obtain ⟨notBare, -⟩ := plain_of_operandInstr? isMnemonic
  exact ⟨mk, fun operands => by simp [parseInstr, notBare, isMnemonic]⟩

theorem parseInstr_unknown (addr : Addr) {m : List Char} (notOperand : m ∉ operandMnemonics)
    (notBare : m ∉ bareMnemonics) (operands : List (List Char)) :
    parseInstr addr (m :: operands) = .err .badInstruction := by
  simp [parseInstr, bareInstr?_eq_none_of_not_mem notBare, operandInstr?_eq_none_of_not_mem notOperand]

/-! ### What follows an address -/

/-- The tokens after an address for which the assembly grammar gives an error kind (R119, R120). The other three kinds
do not concern them. -/
def RefusedTokens (rest : List (List Char)) : LineError → Prop
  | .badInstruction => ∃ m operands, rest = m :: operands ∧ m ∉ operandMnemonics ∧ m ∉ bareMnemonics
  | .missingOperand => rest = [] ∨ ∃ m ∈ operandMnemonics, rest = [m]
  | .extraOperand => ∃ m operands, rest = m :: operands ∧
      ((m ∈ bareMnemonics ∧ 1 ≤ operands.length) ∨ (m ∈ operandMnemonics ∧ 2 ≤ operands.length))
  | .badOperand => ∃ m ∈ operandMnemonics, ∃ operand, rest = [m, operand] ∧ addressToken? operand = none
  | .badEntry | .badAddress | .badMemory => False

theorem refusedTokens_of_operandMnemonic {addr : Addr} {m : List Char} {operands : List (List Char)} {kind : LineError}
    (isOperand : m ∈ operandMnemonics) (refused : parseInstr addr (m :: operands) = .err kind) :
    RefusedTokens (m :: operands) kind := by
  obtain ⟨mk, parsed⟩ := parseInstr_operandMnemonic addr isOperand
  rw [parsed] at refused
  match operands with
  | [] =>
    obtain ⟨⟩ := refused
    exact .inr ⟨m, isOperand, rfl⟩
  | [operand] =>
    cases named : addressToken? operand with
    | none =>
      simp only [parseOperands, named] at refused
      obtain ⟨⟩ := refused
      exact ⟨m, isOperand, operand, rfl, named⟩
    | some n => simp [parseOperands, named] at refused
  | _ :: _ :: _ =>
    obtain ⟨⟩ := refused
    exact ⟨m, _, rfl, .inr ⟨isOperand, by simp⟩⟩

theorem refusedTokens_of_parseInstr {addr : Addr} {rest : List (List Char)} {kind : LineError}
    (refused : parseInstr addr rest = .err kind) : RefusedTokens rest kind := by
  cases rest with
  | nil =>
    obtain ⟨⟩ := refused
    exact .inl rfl
  | cons m operands =>
    by_cases isOperand : m ∈ operandMnemonics
    · exact refusedTokens_of_operandMnemonic isOperand refused
    by_cases isBare : m ∈ bareMnemonics
    · cases operands with
      | nil =>
        obtain ⟨i, accepted⟩ := parseInstr_bare_end addr isBare
        obtain ⟨⟩ := accepted.symm.trans refused
      | cons operand operands =>
        obtain ⟨⟩ := (parseInstr_bare_operands addr isBare (List.cons_ne_nil _ _)).symm.trans refused
        exact ⟨m, _, rfl, .inl ⟨isBare, by simp⟩⟩
    · obtain ⟨⟩ := (parseInstr_unknown addr isOperand isBare operands).symm.trans refused
      exact ⟨m, operands, rfl, isOperand, isBare⟩

theorem parseInstr_of_refusedTokens (addr : Addr) {rest : List (List Char)} {kind : LineError}
    (refused : RefusedTokens rest kind) : parseInstr addr rest = .err kind := by
  cases kind with
  | badInstruction =>
    obtain ⟨m, operands, rfl, notOperand, notBare⟩ := refused
    exact parseInstr_unknown addr notOperand notBare operands
  | missingOperand =>
    obtain rfl | ⟨m, isOperand, rfl⟩ := refused
    · rfl
    · obtain ⟨mk, parsed⟩ := parseInstr_operandMnemonic addr isOperand
      exact parsed []
  | extraOperand =>
    obtain ⟨m, operands, rfl, ⟨isBare, more⟩ | ⟨isOperand, more⟩⟩ := refused
    · exact parseInstr_bare_operands addr isBare (List.length_pos_iff.mp more)
    · obtain ⟨mk, parsed⟩ := parseInstr_operandMnemonic addr isOperand
      match operands, more with
      | first :: second :: others, _ => exact parsed (first :: second :: others)
  | badOperand =>
    obtain ⟨m, isOperand, operand, rfl, notAddr⟩ := refused
    obtain ⟨mk, parsed⟩ := parseInstr_operandMnemonic addr isOperand
    rw [parsed, parseOperands, notAddr]
  | badEntry | badAddress | badMemory => exact refused.elim

/-! ### The two grammars and the line -/

theorem parseAssembly_eq_err_iff {addrTok : List Char} {rest : List (List Char)} {kind : LineError} :
    parseAssembly addrTok rest = .err kind ↔ (kind = .badAddress ∧ addressToken? addrTok = none) ∨
      ((∃ addr, addressToken? addrTok = some addr) ∧ RefusedTokens rest kind) := by
  cases isAddr : addressToken? addrTok with
  | none => simp [parseAssembly, isAddr, eq_comm]
  | some addr =>
    have iff : parseInstr addr rest = .err kind ↔ RefusedTokens rest kind :=
      ⟨refusedTokens_of_parseInstr, parseInstr_of_refusedTokens addr⟩
    simp [parseAssembly, isAddr, iff]

theorem parseBinary_eq_err_iff {addrTok bitTok : List Char} {kind : LineError} :
    parseBinary addrTok bitTok = .err kind ↔ (kind = .badAddress ∧ addressToken? addrTok = none) ∨
      (kind = .badMemory ∧ (∃ addr, addressToken? addrTok = some addr) ∧ bitToken? bitTok = none) := by
  cases isAddr : addressToken? addrTok with
  | none => simp [parseBinary, isAddr, eq_comm]
  | some addr => cases isWord : bitToken? bitTok <;> simp [parseBinary, isAddr, isWord, eq_comm]

/-- A line is empty, or has a first colon, or is not empty and has none. -/
theorem line_cases (line : Line) : line = [] ∨
    (∃ pre post, line = pre ++ ':' :: post ∧ ∀ c ∈ pre, c ≠ ':') ∨ (line ≠ [] ∧ ∀ c ∈ line, c ≠ ':') := by
  by_cases blank : line = []
  · exact .inl blank
  by_cases colon : ':' ∈ line
  · obtain ⟨pre, post, split, notInPre⟩ := List.eq_append_cons_of_mem colon
    exact .inr (.inl ⟨pre, post, split, fun _ inPre isColon => notInPre (isColon ▸ inPre)⟩)
  · exact .inr (.inr ⟨blank, fun _ inLine isColon => colon (isColon ▸ inLine)⟩)

theorem parseLine_eq_err_iff {line : Line} {kind : LineError} :
    parseLine line = .err kind ↔ (line = [] ∧ kind = .badEntry) ∨
      (∃ pre post, line = pre ++ ':' :: post ∧ (∀ c ∈ pre, c ≠ ':') ∧ parseBinary pre post = .err kind) ∨
      (line ≠ [] ∧ (∀ c ∈ line, c ≠ ':') ∧ parseAssembly (tokens line).1 (tokens line).2 = .err kind) := by
  constructor
  · intro refused
    obtain rfl | ⟨pre, post, rfl, noColon⟩ | ⟨notEmpty, noColon⟩ := line_cases line
    · obtain ⟨⟩ := refused
      exact .inl ⟨rfl, rfl⟩
    · rw [parseLine_of_colon noColon] at refused
      exact .inr (.inl ⟨pre, post, rfl, noColon, refused⟩)
    · rw [parseLine_of_no_colon notEmpty noColon] at refused
      exact .inr (.inr ⟨notEmpty, noColon, refused⟩)
  · rintro (⟨rfl, rfl⟩ | ⟨pre, post, rfl, noColon, refused⟩ | ⟨notEmpty, noColon, refused⟩)
    · rfl
    · rwa [parseLine_of_colon noColon]
    · rwa [parseLine_of_no_colon notEmpty noColon]

/-- A line of the assembly grammar whose first token is an address. -/
def Addressed (line : Line) : Prop :=
  (∀ c ∈ line, c ≠ ':') ∧ ∃ addr, addressToken? (tokens line).1 = some addr

theorem Addressed.ne_nil {line : Line} (addressed : Addressed line) : line ≠ [] := by
  rintro rfl
  obtain ⟨-, addr, isAddr⟩ := addressed
  cases isAddr

theorem parseLine_eq_badAddress_iff {line : Line} :
    parseLine line = .err .badAddress ↔
      (∃ pre post, line = pre ++ ':' :: post ∧ (∀ c ∈ pre, c ≠ ':') ∧ addressToken? pre = none) ∨
      (line ≠ [] ∧ (∀ c ∈ line, c ≠ ':') ∧ addressToken? (tokens line).1 = none) := by
  simp [parseLine_eq_err_iff, parseBinary_eq_err_iff, parseAssembly_eq_err_iff, RefusedTokens]

theorem parseLine_eq_badMemory_iff {line : Line} :
    parseLine line = .err .badMemory ↔
      ∃ pre post, line = pre ++ ':' :: post ∧ (∀ c ∈ pre, c ≠ ':') ∧ (∃ addr, addressToken? pre = some addr) ∧
        (post.length ≠ 32 ∨ ∃ c ∈ post, c ≠ '0' ∧ c ≠ '1') := by
  simp only [← bitToken?_eq_none_iff]
  simp [parseLine_eq_err_iff, parseBinary_eq_err_iff, parseAssembly_eq_err_iff, RefusedTokens]

/-- The four kinds that only what follows an address can give. -/
theorem parseLine_eq_err_iff_refusedTokens {line : Line} {kind : LineError} (notEntry : kind ≠ .badEntry)
    (notAddress : kind ≠ .badAddress) (notMemory : kind ≠ .badMemory) :
    parseLine line = .err kind ↔ Addressed line ∧ RefusedTokens (tokens line).2 kind := by
  have assembly : parseLine line = .err kind ↔ line ≠ [] ∧ Addressed line ∧ RefusedTokens (tokens line).2 kind := by
    simp [parseLine_eq_err_iff, parseBinary_eq_err_iff, parseAssembly_eq_err_iff, notEntry, notAddress, notMemory,
      Addressed, and_assoc]
  exact assembly.trans ⟨And.right, fun refused => ⟨refused.1.ne_nil, refused⟩⟩

/-- Settles O53: `RefusedTokens` names the tokens of each kind that the assembly grammar gives after an address. -/
theorem eachLineErrorIsGivenExactlyWhereItsCheckFailsFirst :
    Obligations.EachLineErrorIsGivenExactlyWhereItsCheckFailsFirst :=
  fun line => ⟨parseLine_eq_badEntry_iff line, parseLine_eq_badAddress_iff, parseLine_eq_badMemory_iff,
    parseLine_eq_err_iff_refusedTokens nofun nofun nofun, parseLine_eq_err_iff_refusedTokens nofun nofun nofun,
    parseLine_eq_err_iff_refusedTokens nofun nofun nofun, parseLine_eq_err_iff_refusedTokens nofun nofun nofun⟩

end Sys2Proof.Machine
end
